-- ==== Sys2Proof/Word.lean ====
section
/-! DEFINITION. The words of the TTI block codec: bytes, command words, chunks and blocks (00_scope.md R6, R8). -/

namespace Sys2Proof

/-- A byte: an unsigned 8-bit value, bit 0 least significant (R8). -/
abbrev Byte := BitVec 8

/-- A command word `cmd[11:0]` (30_encoding.md R48). -/
abbrev CmdWord := BitVec 12

/-- The 7 payload lanes of one block (R6). -/
abbrev Chunk := Vector Byte 7

/-- An 8-byte block: the header byte at offset 0, then 7 stored payload bytes (R6, R36, R61). -/
abbrev Block := Vector Byte 8

end Sys2Proof
end

