-- ==== Sys2Proof/Syntax.lean ====
section
/-! DEFINITION. The instructions: one constructor per row of spec/opcode_table.json. -/

namespace Sys2Proof

/-- The 8 commands and the reserved space of the command port (30_encoding.md R49), and the 4 block kinds the decoder
dispatches on (R58). A command that ignores its `DATA` field (R52) carries no operand. A block kind carries every bit
of its 8-byte block: the informational parity bits too, which its meaning ignores (R59). -/
inductive Instr where
  /-- `NOP`, `OP = 0x0` (R102). -/
  | nop
  /-- `E.RESET`, `OP = 0x1` (R82). -/
  | eReset
  /-- `E.DATA b`, `OP = 0x2` (R83). -/
  | eData (b : Byte)
  /-- `E.END`, `OP = 0x3` (R84). -/
  | eEnd
  /-- `G.RESET`, `OP = 0x4` (R101). -/
  | gReset
  /-- `D.RESET`, `OP = 0x5` (R89). -/
  | dReset
  /-- `D.DATA b`, `OP = 0x6` (R90). -/
  | dData (b : Byte)
  /-- `D.END`, `OP = 0x7` (R95). -/
  | dEnd
  /-- A word with `OP` 0x8 to 0xF (R103): `op` is the whole field, `data` the ignored `DATA`. -/
  | reserved (op : BitVec 4) (data : Byte)
  /-- `BLK.DATA`, `h[1:0] = 0b00` (R96): `pv = h[7:2]`, `q` the stored payload. -/
  | blkData (pv : BitVec 6) (q : Chunk)
  /-- `BLK.DATA.S`, `h[1:0] = 0b01` (R97). -/
  | blkDataS (pv : BitVec 6) (q : Chunk)
  /-- `BLK.FINAL`, `h[1:0] = 0b10` (R98): `pvHi = h[7:5]`, `len = h[4:2]`. -/
  | blkFinal (pvHi len : BitVec 3) (q : Chunk)
  /-- `BLK.FINAL.S`, `h[1:0] = 0b11` (R99). -/
  | blkFinalS (pvHi len : BitVec 3) (q : Chunk)
deriving DecidableEq, Repr

/-- The instruction's name in spec/opcode_table.json. -/
def Instr.mnemonic : Instr → String
  | .nop => "NOP"
  | .eReset => "E.RESET"
  | .eData _ => "E.DATA"
  | .eEnd => "E.END"
  | .gReset => "G.RESET"
  | .dReset => "D.RESET"
  | .dData _ => "D.DATA"
  | .dEnd => "D.END"
  | .reserved _ _ => "RESERVED"
  | .blkData _ _ => "BLK.DATA"
  | .blkDataS _ _ => "BLK.DATA.S"
  | .blkFinal _ _ _ => "BLK.FINAL"
  | .blkFinalS _ _ _ => "BLK.FINAL.S"

end Sys2Proof
end

