-- ==== Sys2Proof/WellFormed.lean ====
section
/-! DEFINITION. Which instructions are well-formed: those some encoding of the spec stands for. -/

namespace Sys2Proof

/-- The one check the operand types leave to make: a reserved command's `OP` is 0x8 to 0xF (30_encoding.md R53). Every
other operand may take every value of its width (R51, R60). -/
def Instr.wf : Instr → Bool
  | .reserved op _ => 8 ≤ op.toNat
  | .nop => true
  | .eReset => true
  | .eData _ => true
  | .eEnd => true
  | .gReset => true
  | .dReset => true
  | .dData _ => true
  | .dEnd => true
  | .blkData _ _ => true
  | .blkDataS _ _ => true
  | .blkFinal _ _ _ => true
  | .blkFinalS _ _ _ => true

/-- `i` is well-formed. -/
abbrev Instr.WellFormed (i : Instr) : Prop := i.wf = true

end Sys2Proof
end

