-- ==== Sys2Proof/Decode.lean ====
section
/-! DEFINITION. The decoder and the encoder of the two formats of 30_encoding.md: the 12-bit command word and the 8-byte
block. Both decoders are total (R48, R60). -/

namespace Sys2Proof

/-! ### Fields of a command word (R48) -/

/-- `OP = cmd[11:8]`. -/
def cmdOp (w : CmdWord) : BitVec 4 := w.extractLsb' 8 4

/-- `DATA = cmd[7:0]`: the operand byte as it stands, not extended, scaled or shifted (R51). -/
def cmdData (w : CmdWord) : Byte := w.extractLsb' 0 8

/-- The word with `OP = op` and `DATA = data`. -/
def cmdWord (op : BitVec 4) (data : Byte) : CmdWord := op ++ data

/-! ### Fields of a header byte (R55) -/

/-- `S = h[0]`, the payload-shift flag. -/
def hdrS (h : Byte) : Bool := h.getLsbD 0

/-- `E = h[1]`, the end-of-stream flag. -/
def hdrE (h : Byte) : Bool := h.getLsbD 1

/-- `LEN = h[4:2]`, valid only when `E = 1`. -/
def hdrLen (h : Byte) : BitVec 3 := h.extractLsb' 2 3

/-- `h[7:2]`, the parity bits of a non-final header. -/
def hdrPv (h : Byte) : BitVec 6 := h.extractLsb' 2 6

/-- `h[7:5]`, the parity bits a final header keeps. -/
def hdrPvHi (h : Byte) : BitVec 3 := h.extractLsb' 5 3

/-- A non-final header laid out from its fields (R55, `E = 0`). -/
def hdrData (pv : BitVec 6) (s : Bool) : Byte := pv ++ 0#1 ++ BitVec.ofBool s

/-- A final header laid out from its fields (R55, `E = 1`). -/
def hdrFinal (pvHi len : BitVec 3) (s : Bool) : Byte := pvHi ++ len ++ 1#1 ++ BitVec.ofBool s

/-! ### The block layout (R36, R61) -/

/-- The header at offset 0 and stored byte `j` at offset `1 + j`. -/
def blockOf (h : Byte) (q : Chunk) : Block := #v[h, q[0], q[1], q[2], q[3], q[4], q[5], q[6]]

/-- The 7 stored payload bytes of a block. -/
def blockPayload (blk : Block) : Chunk := #v[blk[1], blk[2], blk[3], blk[4], blk[5], blk[6], blk[7]]

/-! ### The decoders -/

/-- The command decoder (R49): `OP` alone says what a word is, and all 4096 words decode (R48). -/
def decodeCommand (w : CmdWord) : Instr :=
  match cmdOp w with
  | 0x0#4 => .nop
  | 0x1#4 => .eReset
  | 0x2#4 => .eData (cmdData w)
  | 0x3#4 => .eEnd
  | 0x4#4 => .gReset
  | 0x5#4 => .dReset
  | 0x6#4 => .dData (cmdData w)
  | 0x7#4 => .dEnd
  | op => .reserved op (cmdData w)

/-- The block-kind decoder (R58): `h[1:0]` selects the kind, and every header value is legal (R60). -/
def decodeBlock (blk : Block) : Instr :=
  match hdrE blk[0], hdrS blk[0] with
  | false, false => .blkData (hdrPv blk[0]) (blockPayload blk)
  | false, true => .blkDataS (hdrPv blk[0]) (blockPayload blk)
  | true, false => .blkFinal (hdrPvHi blk[0]) (hdrLen blk[0]) (blockPayload blk)
  | true, true => .blkFinalS (hdrPvHi blk[0]) (hdrLen blk[0]) (blockPayload blk)

/-- What encodes an instruction: one word on the command port, or the 8 bytes of a block. -/
inductive Encoding where
  | command (w : CmdWord)
  | block (blk : Block)
deriving DecidableEq, Repr

/-- The instruction an encoding stands for. -/
def decode : Encoding → Instr
  | .command w => decodeCommand w
  | .block blk => decodeBlock blk

/-! ### The encoder -/

/-- The encoding of a well-formed instruction. A command that takes no byte gets `DATA = 0x00` (R52, R63). -/
def encode : Instr → Encoding
  | .nop => .command (cmdWord 0x0 0x00)
  | .eReset => .command (cmdWord 0x1 0x00)
  | .eData b => .command (cmdWord 0x2 b)
  | .eEnd => .command (cmdWord 0x3 0x00)
  | .gReset => .command (cmdWord 0x4 0x00)
  | .dReset => .command (cmdWord 0x5 0x00)
  | .dData b => .command (cmdWord 0x6 b)
  | .dEnd => .command (cmdWord 0x7 0x00)
  | .reserved op data => .command (cmdWord op data)
  | .blkData pv q => .block (blockOf (hdrData pv false) q)
  | .blkDataS pv q => .block (blockOf (hdrData pv true) q)
  | .blkFinal pvHi len q => .block (blockOf (hdrFinal pvHi len false) q)
  | .blkFinalS pvHi len q => .block (blockOf (hdrFinal pvHi len true) q)

/-! ### The opcode table as data (R66) -/

/-- One row: a word `w` belongs to it when `w &&& mask = pattern`. -/
structure OpcodeRow (n : Nat) where
  mnemonic : String
  mask : BitVec n
  pattern : BitVec n
deriving DecidableEq, Repr

/-- The word `w` belongs to the row. -/
def OpcodeRow.accepts {n : Nat} (r : OpcodeRow n) (w : BitVec n) : Bool := w &&& r.mask == r.pattern

/-- The rows of format `cmd12`. -/
def commandRows : List (OpcodeRow 12) :=
  [⟨"NOP", 0xF00, 0x000⟩, ⟨"E.RESET", 0xF00, 0x100⟩, ⟨"E.DATA", 0xF00, 0x200⟩, ⟨"E.END", 0xF00, 0x300⟩,
   ⟨"G.RESET", 0xF00, 0x400⟩, ⟨"D.RESET", 0xF00, 0x500⟩, ⟨"D.DATA", 0xF00, 0x600⟩, ⟨"D.END", 0xF00, 0x700⟩,
   ⟨"RESERVED", 0x800, 0x800⟩]

/-- The rows of format `header8`, over the header byte. -/
def headerRows : List (OpcodeRow 8) :=
  [⟨"BLK.DATA", 0x03, 0x00⟩, ⟨"BLK.DATA.S", 0x03, 0x01⟩, ⟨"BLK.FINAL", 0x03, 0x02⟩, ⟨"BLK.FINAL.S", 0x03, 0x03⟩]

/-! ### Words as spec/opcode_table.json numbers them -/

/-- Why a number is the encoding of no instruction. -/
inductive DecodeError where
  /-- No format of the table has this many bits. -/
  | noFormatOfWidth (nbits : Nat)
  /-- The number does not fit the format: a command word has 12 bits, a block 64 (8 when only its header is given). -/
  | tooWide (w : Nat)
deriving DecidableEq, Repr

/-- Byte `j` of a number, byte 0 the least significant. -/
def byteOfNat (w j : Nat) : Byte := BitVec.ofNat 8 (w >>> (8 * j))

/-- The encoding whose bits are `w`. A command word has 12 bits (16 in whole bytes). A block is numbered from its header
byte on, which is all the table gives bits to: with 8 bits its stored payload is 7 zero bytes; 64 bits give it whole. -/
def tableEncoding (nbits w : Nat) : Except DecodeError Encoding :=
  if nbits = 12 ∨ nbits = 16 then
    if w < 2 ^ 12 then .ok (.command (BitVec.ofNat 12 w)) else .error (.tooWide w)
  else if nbits = 8 ∨ nbits = 64 then
    if w < 2 ^ nbits then
      .ok (.block #v[byteOfNat w 0, byteOfNat w 1, byteOfNat w 2, byteOfNat w 3,
                     byteOfNat w 4, byteOfNat w 5, byteOfNat w 6, byteOfNat w 7])
    else .error (.tooWide w)
  else .error (.noFormatOfWidth nbits)

/-- The instruction the decoder reads from a word of the table, or why it reads none. -/
def decodeTable (nbits w : Nat) : Except DecodeError Instr :=
  match tableEncoding nbits w with
  | .ok e => .ok (decode e)
  | .error r => .error r

/-- The instruction the decoder reads from a word of the table. -/
def decodeTableWord (nbits w : Nat) : Option Instr :=
  match decodeTable nbits w with
  | .ok i => some i
  | .error _ => none

end Sys2Proof
end

