-- ==== Sys2Proof/Config.lean ====
section
/-! DEFINITION. What one implementation of the codec fixes (00_scope.md R7, 10_state.md R32), and the free values: what
the spec leaves without a value. -/

namespace Sys2Proof

/-- The parameter `PARITY_ORDER` (R7): which of the six parity positions each payload byte takes. -/
inductive ParityOrder where
  | msbFirst
  | lsbFirst
deriving DecidableEq, Repr

/-- `PARITY_ORDER` of the machine that `step` runs: the default that R7 states. Every datapath function takes the order
as an argument, so a statement about one can be made for both orders (log entry 1). -/
def Config.parityOrder : ParityOrder := .msbFirst

/-- FREE VALUE (log entry 3): the byte a buffer entry holds once the spec gives it no defined value (10_state.md R17,
R31; 70_reset_and_hazards.md R128). The argument is the number of free bytes drawn before it. It has no body, so no
proof can learn a value of it. -/
opaque Config.freeByte : Nat → Byte

end Sys2Proof
end

