-- ==== Sys2Proof/Machine/State.lean ====
section
/-! DEFINITION. The state of the codec: everything the table of 10_state.md R15 lists, and two fields of the model's own
(the commands the host has presented, and a counter of free values). -/

namespace Sys2Proof.Machine

open Sys2Proof

/-- `DEC_RESULT`: the outcome of the last `D.END` (R22). -/
inductive DecResult where
  | none
  | ok
  | okEmpty
  | framingError
deriving DecidableEq, Repr

/-- The two exceptions the block has (60_exceptions.md R106, R108, R109). -/
inductive Exception where
  /-- Raised by `D.END` alone. `partialBytes` is `DEC_CNT` just before it; the block does not keep it (R106). -/
  | framingError (partialBytes : BitVec 3)
  /-- Raised by a reserved command alone. The offending word is not kept (R108). -/
  | illegalCommand (word : CmdWord)
deriving DecidableEq, Repr

/-- The architectural state (R15), then the model's own two fields. -/
structure State where
  /-- `ENC_BUF`: the open chunk's bytes in arrival order; only the first `encCnt` have a defined value (R17). -/
  encBuf : Chunk
  /-- `ENC_CNT` (R18). -/
  encCnt : BitVec 3
  /-- `DEC_BUF`: the block being received; only the first `decCnt` have a defined value (R19). -/
  decBuf : Block
  /-- `DEC_CNT` (R19). -/
  decCnt : BitVec 3
  /-- `DEC_DONE` (R20). -/
  decDone : Bool
  /-- `DEC_SEEN` (R21). -/
  decSeen : Bool
  /-- `DEC_RESULT` (R22). -/
  decResult : DecResult
  /-- `CMD_ERR`, sticky (R23). -/
  cmdErr : Bool
  /-- `ENC_OUT`: every byte the encoder has emitted, in order (R24). -/
  encOut : List Byte
  /-- `DEC_OUT`: every byte the decoder has emitted, in order (R24). -/
  decOut : List Byte
  /-- THE MODEL'S OWN: the command words the host has presented and the block has not yet accepted, oldest first
  (log entry 4). -/
  port : List CmdWord
  /-- THE MODEL'S OWN: how many free bytes have been drawn (log entry 3). -/
  freeIx : Nat
deriving DecidableEq, Repr

/-- Why the machine stops with a fault: never. The spec gives the block no fault (R109), and an exception is recorded
without stopping the command (R10, R112). -/
inductive Fault where
deriving DecidableEq, Repr

/-- Why the machine refuses a command. -/
inductive Refusal where
  /-- The instruction named has no meaning in this model. Raised by `exec`'s arm of such an instruction alone, and no
  arm raises it now. Safe: the model stops where the hardware goes on. -/
  | notModelled (mnemonic : String)
deriving DecidableEq, Repr

/-- The machine when power-on reset completes (R31, R126). The buffers' contents are unspecified there: zero is the
model's choice (log entry 2). No command has been presented (log entry 4). -/
def State.reset : State where
  encBuf := Vector.replicate 7 0
  encCnt := 0
  decBuf := Vector.replicate 8 0
  decCnt := 0
  decDone := false
  decSeen := false
  decResult := .none
  cmdErr := false
  encOut := []
  decOut := []
  port := []
  freeIx := 0

end Sys2Proof.Machine
end

