-- ==== Sys2Proof/Machine/Ops.lean ====
section
/-! DEFINITION. The named operations on state that the command rules share: appending to the output streams, writing and
dropping the buffers, and recording an exception. -/

namespace Sys2Proof.Machine

open Sys2Proof

/-- `EmitEnc(l)`: append `l`, in order, to `ENC_OUT` (00_scope.md R10). -/
def State.emitEnc (l : List Byte) (s : State) : State := { s with encOut := s.encOut ++ l }

/-- `EmitDec(l)`: append `l`, in order, to `DEC_OUT` (R10). -/
def State.emitDec (l : List Byte) (s : State) : State := { s with decOut := s.decOut ++ l }

/-- Taking an exception. The block has no trap mechanism: a raise records its code in `STATUS` and nothing else, and
the command goes on (R10; 60_exceptions.md R106, R108, R112). There is no return to model (R113). -/
def State.raise : Exception → State → State
  | .framingError _, s => { s with decResult := .framingError }
  | .illegalCommand _, s => { s with cmdErr := true }

/-- `S.ENC_BUF[S.ENC_CNT] <- b; S.ENC_CNT <- S.ENC_CNT + 1` (41_encoder.md R83). The rule reaches it with
`ENC_CNT <= 6` only, so the result is 1 to 7. -/
def State.putEnc (b : Byte) (s : State) : State :=
  { s with encBuf := s.encBuf.setIfInBounds s.encCnt.toNat b, encCnt := s.encCnt + 1 }

/-- `S.DEC_SEEN <- 1; S.DEC_BUF[S.DEC_CNT] <- b` (42_decoder.md R90). -/
def State.putDec (b : Byte) (s : State) : State :=
  { s with decSeen := true, decBuf := s.decBuf.set s.decCnt.toNat b s.decCnt.isLt }

/-- `S.ENC_CNT <- 0`. No entry of `ENC_BUF` then has a defined value (10_state.md R17): each becomes a free byte
(log entry 3). -/
def State.dropEnc (s : State) : State :=
  { s with
    encBuf := Vector.ofFn fun j => Config.freeByte (s.freeIx + j.val)
    encCnt := 0
    freeIx := s.freeIx + 7 }

/-- `S.DEC_CNT <- 0`. No entry of `DEC_BUF` then has a defined value (10_state.md R19, R29): each becomes a free byte
(log entry 3). -/
def State.dropDec (s : State) : State :=
  { s with
    decBuf := Vector.ofFn fun j => Config.freeByte (s.freeIx + j.val)
    decCnt := 0
    freeIx := s.freeIx + 8 }

end Sys2Proof.Machine
end

