-- ==== Sys2Proof/Machine/Operands.lean ====
section
/-! DEFINITION. The operands of the datapath. A command's own operand is the byte its decoding carries, used as it
stands (30_encoding.md R51). -/

namespace Sys2Proof.Machine

open Sys2Proof

/-- `Pad7(buf, n)`, the zero padder (40_datapath.md R70): it reads no entry at or beyond `n`. -/
def pad7 (buf : Chunk) (n : BitVec 3) : Chunk := Vector.ofFn fun j => if j.val < n.toNat then buf[j] else 0x00

/-- The real bytes of the encoder's open chunk: `ENC_BUF[0]` to `ENC_BUF[ENC_CNT-1]` (10_state.md R17). -/
def State.encBytes (s : State) : List Byte := s.encBuf.toList.take s.encCnt.toNat

/-- The bytes of the block being received: `DEC_BUF[0]` to `DEC_BUF[DEC_CNT-1]` (10_state.md R19). -/
def State.decBytes (s : State) : List Byte := s.decBuf.toList.take s.decCnt.toNat

end Sys2Proof.Machine
end

