-- ==== Sys2Proof/Machine/Flags.lean ====
section
/-! DEFINITION. The status flags: the code of `DEC_RESULT` and the `STATUS` register. -/

namespace Sys2Proof.Machine

open Sys2Proof

/-- The 2-bit code of `DEC_RESULT` (10_state.md R22). -/
def DecResult.code : DecResult → BitVec 2
  | .none => 0b00
  | .ok => 0b01
  | .okEmpty => 0b10
  | .framingError => 0b11

/-- The 16-bit `STATUS` register, a pure projection of the state (10_state.md R27, 43_global.md R105). Reading it is no
command and has no side effect (R28). -/
def State.status (s : State) : BitVec 16 :=
  (BitVec.ofBool s.cmdErr).setWidth 16 <<< 11 ||| s.decResult.code.setWidth 16 <<< 9 |||
    (BitVec.ofBool s.decSeen).setWidth 16 <<< 8 ||| (BitVec.ofBool s.decDone).setWidth 16 <<< 7 |||
    s.decCnt.setWidth 16 <<< 4 ||| s.encCnt.setWidth 16

end Sys2Proof.Machine
end

