-- ==== Sys2Proof/Machine/Datapath.lean ====
section
/-! DEFINITION. The combinational functions of 40_datapath.md: the parity generators, the shift unit, the header former,
and the block mux and demux. None has state, and each takes `PARITY_ORDER` as an argument where it depends on it. -/

namespace Sys2Proof.Machine

open Sys2Proof

/-- The number of 1 bits in `b` (00_scope.md R9). -/
def popcount (b : Byte) : Nat := (List.range 8).countP fun i => b.getLsbD i

/-- `PAR(b) = popcount(b) & 1` (R67). -/
def par (b : Byte) : Bool := popcount b % 2 == 1

/-- The position payload byte `i`'s parity takes in the 6-bit parity value (00_scope.md R7). -/
def parityPlace : ParityOrder → Nat → Nat
  | .msbFirst, i => 5 - i
  | .lsbFirst, i => i

/-- The six parity bits before the group inversion (R69). -/
def rawParity (o : ParityOrder) (ch : Chunk) : BitVec 6 :=
  ([0, 1, 2, 3, 4, 5] : List (Fin 7)).foldl
    (fun raw i => raw ||| (BitVec.ofBool (par ch[i])).setWidth 6 <<< parityPlace o i.val) 0

/-- `PV(c)` (R69): the six bits, inverted as a group when byte 6 has odd parity. -/
def parityValue (o : ParityOrder) (ch : Chunk) : BitVec 6 :=
  if par ch[6] then ~~~rawParity o ch &&& 0x3F else rawParity o ch

/-- `Shiftable(c, n)` (R71): every real byte is at most 0x7F. -/
def shiftable (ch : Chunk) (n : BitVec 3) : Bool := (ch.toList.take n.toNat).all fun b => b ≤ 0x7F#8

/-- `ShiftLanes(c, S)`, the encode-side shifter (R72). -/
def shiftLanes (ch : Chunk) (s : Bool) : Chunk := Vector.ofFn fun j => if s then ch[j] <<< 1 else ch[j]

/-- `UnshiftLanes(q, S)`, the decode-side shifter; the shift is logical (R73). -/
def unshiftLanes (q : Chunk) (s : Bool) : Chunk := Vector.ofFn fun j => if s then q[j] >>> 1 else q[j]

/-- `HeaderBase(c, S)`, the non-final header (R74). -/
def headerBase (o : ParityOrder) (ch : Chunk) (s : Bool) : Byte :=
  (parityValue o ch).setWidth 8 <<< 2 ||| (BitVec.ofBool s).setWidth 8

/-- `HeaderFinal(c, S, n)`, the final header (R75). -/
def headerFinal (o : ParityOrder) (ch : Chunk) (s : Bool) (n : BitVec 3) : Byte :=
  headerBase o ch s &&& 0xE3 ||| 0x02 ||| n.setWidth 8 <<< 2

/-- `FormBlock(buf, n, final)`, the block mux (R76). -/
def formBlock (o : ParityOrder) (buf : Chunk) (n : BitVec 3) (final : Bool) : Block :=
  let ch := pad7 buf n
  let s := shiftable ch n
  let h := if final then headerFinal o ch s n else headerBase o ch s
  blockOf h (shiftLanes ch s)

/-- `SplitBlock(blk)`, the block demux (R77): whether the block is final, and the bytes it carries. -/
def splitBlock (blk : Block) : Bool × List Byte :=
  let p := unshiftLanes (blockPayload blk) (hdrS blk[0])
  if hdrE blk[0] then (true, p.toList.take (hdrLen blk[0]).toNat) else (false, p.toList)

end Sys2Proof.Machine
end

