-- ==== Sys2Proof/Machine/Decoder.lean ====
section
/-! DEFINITION. The meanings of the decoder commands and of the four block kinds (42_decoder.md). `D.DATA` runs the block
kind of a block in the step that completes it. -/

namespace Sys2Proof.Machine

open Sys2Proof

/-! ### Block kinds (R96 to R99) -/

/-- `EmitDec([q[0], ..., q[6]])` (R96). -/
def blkDataStep (q : Chunk) (s : State) : State := s.emitDec q.toList

/-- `EmitDec([q[0] >> 1, ..., q[6] >> 1])` (R97). -/
def blkDataSStep (q : Chunk) (s : State) : State := s.emitDec (q.toList.map fun (b : Byte) => b >>> 1)

/-- `EmitDec(take(LEN, q)); S.DEC_DONE <- 1` (R98). -/
def blkFinalStep (len : BitVec 3) (q : Chunk) (s : State) : State :=
  { s.emitDec (q.toList.take len.toNat) with decDone := true }

/-- `EmitDec(take(LEN, [q[0] >> 1, ..., q[6] >> 1])); S.DEC_DONE <- 1` (R99). -/
def blkFinalSStep (len : BitVec 3) (q : Chunk) (s : State) : State :=
  { s.emitDec ((q.toList.map fun (b : Byte) => b >>> 1).take len.toNat) with decDone := true }

/-- `BLK.DATA` (R96); the parity bits are ignored (R59). -/
def execBlkData (_pv : BitVec 6) (q : Chunk) (s : State) : Host.Outcome State Fault Refusal :=
  .next (blkDataStep q s)

/-- `BLK.DATA.S` (R97). -/
def execBlkDataS (_pv : BitVec 6) (q : Chunk) (s : State) : Host.Outcome State Fault Refusal :=
  .next (blkDataSStep q s)

/-- `BLK.FINAL` (R98). -/
def execBlkFinal (_pvHi len : BitVec 3) (q : Chunk) (s : State) : Host.Outcome State Fault Refusal :=
  .next (blkFinalStep len q s)

/-- `BLK.FINAL.S` (R99). -/
def execBlkFinalS (_pvHi len : BitVec 3) (q : Chunk) (s : State) : Host.Outcome State Fault Refusal :=
  .next (blkFinalSStep len q s)

/-- `ProcessBlock(blk)` (R91): run the block kind that `h[1:0]` selects (30_encoding.md R58). -/
def processBlock (blk : Block) (s : State) : State :=
  match hdrE blk[0], hdrS blk[0] with
  | false, false => blkDataStep (blockPayload blk) s
  | false, true => blkDataSStep (blockPayload blk) s
  | true, false => blkFinalStep (hdrLen blk[0]) (blockPayload blk) s
  | true, true => blkFinalSStep (hdrLen blk[0]) (blockPayload blk) s

/-! ### Commands -/

/-- `D.RESET` (R89). -/
def execDReset (s : State) : Host.Outcome State Fault Refusal :=
  .next { s.dropDec with decDone := false, decSeen := false, decResult := .none }

/-- `D.DATA b` (R90): ignored once the final block was processed (R93); the eighth byte of a block processes it. -/
def dDataStep (b : Byte) (s : State) : State :=
  if s.decDone then s
  else if s.decCnt = 7 then (processBlock (s.putDec b).decBuf (s.putDec b)).dropDec
  else { s.putDec b with decCnt := s.decCnt + 1 }

/-- `D.DATA b` (R90). -/
def execDData (b : Byte) (s : State) : Host.Outcome State Fault Refusal := .next (dDataStep b s)

/-- The outcome `D.END` records (R95). A framing error is recorded by taking the exception (60_exceptions.md R106). -/
def recordEnd (s : State) : State :=
  if s.decDone then { s with decResult := .ok }
  else if s.decSeen then s.raise (.framingError s.decCnt)
  else { s with decResult := .okEmpty }

/-- `D.END` (R95): record the outcome and close the stream. -/
def execDEnd (s : State) : Host.Outcome State Fault Refusal :=
  .next { (recordEnd s).dropDec with decDone := false, decSeen := false }

end Sys2Proof.Machine
end

