-- ==== Sys2Proof/Machine/Encoder.lean ====
section
/-! DEFINITION. The meanings of the encoder commands (41_encoder.md). -/

namespace Sys2Proof.Machine

open Sys2Proof

/-- `EmitEnc(FormBlock(S.ENC_BUF, S.ENC_CNT, final)); S.ENC_CNT <- 0`: the open chunk leaves as one block (R83, R84). -/
def State.emitChunk (o : ParityOrder) (final : Bool) (s : State) : State :=
  (s.emitEnc (formBlock o s.encBuf s.encCnt final).toList).dropEnc

/-- `E.RESET` (R82): the buffered bytes are discarded; with `ENC_CNT = 0` it changes nothing. -/
def execEReset (s : State) : Host.Outcome State Fault Refusal :=
  .next (if s.encCnt = 0 then s else s.dropEnc)

/-- `E.DATA b` for either parity order (R83): a full chunk leaves as a non-final block before `b` is taken. -/
def eDataStep (o : ParityOrder) (b : Byte) (s : State) : State :=
  (if s.encCnt = 7 then s.emitChunk o false else s).putEnc b

/-- `E.DATA b` (R83). -/
def execEData (b : Byte) (s : State) : Host.Outcome State Fault Refusal :=
  .next (eDataStep Config.parityOrder b s)

/-- `E.END` for either parity order (R84): an open stream's held chunk leaves as its final block. -/
def eEndStep (o : ParityOrder) (s : State) : State :=
  if s.encCnt = 0 then s else s.emitChunk o true

/-- `E.END` (R84). -/
def execEEnd (s : State) : Host.Outcome State Fault Refusal :=
  .next (eEndStep Config.parityOrder s)

end Sys2Proof.Machine
end

