-- ==== Sys2Proof/Machine/Global.lean ====
section
/-! DEFINITION. The meanings of the block-level commands (43_global.md). -/

namespace Sys2Proof.Machine

open Sys2Proof

/-- `NOP` (R102): no effect. -/
def execNop (s : State) : Host.Outcome State Fault Refusal := .next s

/-- `G.RESET` (R101): every `STATUS` field takes its reset value; bytes already emitted stay. -/
def execGReset (s : State) : Host.Outcome State Fault Refusal :=
  .next { s.dropEnc.dropDec with decDone := false, decSeen := false, decResult := .none, cmdErr := false }

/-- A reserved command (R103): it raises `ILLEGAL_COMMAND` and changes nothing else, whatever its `DATA` field holds. -/
def execReserved (op : BitVec 4) (data : Byte) (s : State) : Host.Outcome State Fault Refusal :=
  .next (s.raise (.illegalCommand (cmdWord op data)))

end Sys2Proof.Machine
end

