-- ==== Sys2Proof/Machine/Dispatch.lean ====
section
/-! DEFINITION. One arm per instruction, each a direct call of its meaning. -/

namespace Sys2Proof.Machine

open Sys2Proof

/-- The meaning of an instruction. -/
def exec (i : Instr) (s : State) : Host.Outcome State Fault Refusal :=
  match i with
  | .nop => Sys2Proof.Machine.execNop s
  | .eReset => Sys2Proof.Machine.execEReset s
  | .eData b => Sys2Proof.Machine.execEData b s
  | .eEnd => Sys2Proof.Machine.execEEnd s
  | .gReset => Sys2Proof.Machine.execGReset s
  | .dReset => Sys2Proof.Machine.execDReset s
  | .dData b => Sys2Proof.Machine.execDData b s
  | .dEnd => Sys2Proof.Machine.execDEnd s
  | .reserved op data => Sys2Proof.Machine.execReserved op data s
  | .blkData pv q => Sys2Proof.Machine.execBlkData pv q s
  | .blkDataS pv q => Sys2Proof.Machine.execBlkDataS pv q s
  | .blkFinal pvHi len q => Sys2Proof.Machine.execBlkFinal pvHi len q s
  | .blkFinalS pvHi len q => Sys2Proof.Machine.execBlkFinalS pvHi len q s

end Sys2Proof.Machine
end

