-- ==== Sys2Proof/Machine/Step.lean ====
section
/-! DEFINITION. One step: the block accepts the oldest command on its port and runs it (00_scope.md R11). -/

namespace Sys2Proof.Machine

open Sys2Proof

/-- One atomic step (R11). With no command presented the block is idle and holds its state (60_exceptions.md R125). -/
def step (s : State) : Host.Outcome State Fault Refusal :=
  match s.port with
  | [] => .next s
  | w :: rest => exec (decodeCommand w) { s with port := rest }

/-- `s` with an encoding placed where the next step takes it: a command at the head of the port; a block as 7 bytes held
by the decoder and its eighth byte at the head of the port, as the operand of a `D.DATA` (log entry 5). -/
def State.withFetched (s : State) : Encoding → State
  | .command w => { s with port := w :: s.port }
  | .block blk =>
    { s with
      decBuf := #v[blk[0], blk[1], blk[2], blk[3], blk[4], blk[5], blk[6], s.decBuf[7]]
      decCnt := 7
      decSeen := true
      decDone := false
      port := cmdWord 0x6 blk[7] :: s.port }

/-- `s` with the table's word placed where the next step takes it; a number that encodes nothing changes nothing. -/
def State.withFetchWord (s : State) (nbits w : Nat) : State :=
  match tableEncoding nbits w with
  | .ok e => s.withFetched e
  | .error _ => s

end Sys2Proof.Machine
end

