-- ==== Sys2Proof/Machine/Stream.lean ====
section
/-! DEFINITION. Whole streams: the command words of a stream (30_encoding.md R64), and the source's encoder and decoder
as functions of a whole stream (41_encoder.md R85, 60_exceptions.md R107), which the commands are held against. -/

namespace Sys2Proof.Machine

open Sys2Proof

/-! ### Command sequences (R64) -/

/-- `E.BYTES b0, ..., bk`. -/
def eBytes (b : List Byte) : List CmdWord := b.map (cmdWord 0x2)

/-- `E.STREAM b0, ..., bk`; with no operand, `E.END` alone. -/
def eStream (b : List Byte) : List CmdWord := eBytes b ++ [cmdWord 0x3 0x00]

/-- `D.BYTES b0, ..., bk`. -/
def dBytes (b : List Byte) : List CmdWord := b.map (cmdWord 0x6)

/-- `D.STREAM b0, ..., bk`. -/
def dStream (b : List Byte) : List CmdWord := dBytes b ++ [cmdWord 0x7 0x00]

/-! ### The source's encoder, steps 1 to 8 -/

/-- The number of blocks of a stream, `K = ceil(N / 7)` (R85). -/
def blockCount (b : List Byte) : Nat := (b.length + 6) / 7

/-- The bytes `b[7k..7k+6]`, zero where the stream has ended. -/
def chunkAt (b : List Byte) (k : Nat) : Chunk := Vector.ofFn fun j => b.getD (7 * k + j.val) 0x00

/-- Block `k` of the stream (R85): the last block is final and holds the `N - 7k` bytes left. -/
def sourceBlock (o : ParityOrder) (b : List Byte) (k : Nat) : Block :=
  if k + 1 = blockCount b then formBlock o (chunkAt b k) (BitVec.ofNat 3 (b.length - 7 * k)) true
  else formBlock o (chunkAt b k) 7 false

/-- The blocks of a stream, in order. -/
def sourceBlocks (o : ParityOrder) (b : List Byte) : List Block := (List.range (blockCount b)).map (sourceBlock o b)

/-- The framed stream: the source's `encode` before its step-9 padding. -/
def sourceEncode (o : ParityOrder) (b : List Byte) : List Byte := (sourceBlocks o b).flatMap (·.toList)

/-- The source's step 9, a duty of the host and no part of the block (60_exceptions.md R121): cyclic copies of the output
up to a multiple of 3 bytes, and `3 * extra` more where the host asked for a ratio. DESIGN CHOICE (log entry 9): for an empty output, which has no byte to
repeat, those `3 * extra` bytes are 0x00; the spec gives neither their number nor their values (91_not_in_source.md). -/
def hostPad (extra : Nat) (out : List Byte) : List Byte :=
  out ++ (List.range ((3 - out.length % 3) % 3 + 3 * extra)).map fun i => out.getD (i % out.length) 0x00

/-! ### The source's decoder -/

/-- Read exactly 8 bytes at a time until a block is final; fewer than 8 bytes before that is a framing failure. -/
def decodeBlocks : List Byte → List Byte × DecResult
  | h :: q0 :: q1 :: q2 :: q3 :: q4 :: q5 :: q6 :: rest =>
    match splitBlock #v[h, q0, q1, q2, q3, q4, q5, q6] with
    | (true, out) => (out, .ok)
    | (false, out) => (out ++ (decodeBlocks rest).1, (decodeBlocks rest).2)
  | _ => ([], .framingError)

/-- The source's `decode`: the bytes it yields and the outcome; the empty stream is special-cased (90_conflicts.md C3). -/
def sourceDecode (x : List Byte) : List Byte × DecResult := if x = [] then ([], .okEmpty) else decodeBlocks x

end Sys2Proof.Machine
end

