-- ==== Sys2Proof/Machine/Assembler.lean ====
section
/-! DEFINITION. The assembler of 30_encoding.md R63 and R64. No instruction's meaning uses it. What R63 leaves open of a
spelling is log entry 6. -/

namespace Sys2Proof.Machine

open Sys2Proof

/-! ### Scanning a line -/

/-- A piece of a line. -/
inductive Token where
  /-- A mnemonic or a number. -/
  | word (cs : List Char)
  /-- A character literal. -/
  | char (c : Char)
  /-- A string. -/
  | text (cs : List Char)
  | comma
deriving DecidableEq, Repr

/-- A character with code 0x20 to 0x7E (R63, R64). -/
def printable (c : Char) : Bool := 0x20 ≤ c.toNat && c.toNat ≤ 0x7E

/-- The word read so far, if any, before the tokens after it. -/
def flushWord (w : List Char) (ts : List Token) : List Token := if w.isEmpty then ts else .word w.reverse :: ts

/-- The tokens of a line. `w` is the word being read, reversed; `t` is the string being read, reversed, inside quotes.
A `;` outside quotes begins a comment (R63). -/
def scan : List Char → List Char → Option (List Char) → Option (List Token)
  | [], w, none => some (flushWord w [])
  | [], _, some _ => none
  | c :: cs, _, some t =>
    if c == '"' then (scan cs [] none).map (.text t.reverse :: ·)
    else if printable c then scan cs [] (some (c :: t)) else none
  | c :: cs, w, none =>
    if c == ';' then some (flushWord w [])
    else if c == ' ' || c == '\t' then (scan cs [] none).map (flushWord w)
    else if c == ',' then (scan cs [] none).map fun ts => flushWord w (.comma :: ts)
    else if c == '"' then if w.isEmpty then scan cs [] (some []) else none
    else if c == '\'' then
      match cs with
      | x :: '\'' :: rest =>
        if w.isEmpty && printable x then (scan rest [] none).map (.char x :: ·) else none
      | _ => none
    else scan cs (c :: w) none

/-! ### Operands -/

/-- The value of a digit in the base given, which is 10 or 16. -/
def digitValue (base : Nat) (c : Char) : Option Nat :=
  let n := c.toNat
  let v := if 0x30 ≤ n ∧ n ≤ 0x39 then n - 0x30
    else if 0x41 ≤ n ∧ n ≤ 0x46 then n - 0x41 + 10
    else if 0x61 ≤ n ∧ n ≤ 0x66 then n - 0x61 + 10
    else base
  if v < base then some v else none

/-- The number the digits spell; no digit spells none. -/
def digitsValue (base : Nat) : List Char → Nat → Option Nat
  | [], _ => none
  | [c], acc => (digitValue base c).map (acc * base + ·)
  | c :: cs, acc =>
    match digitValue base c with
    | some d => digitsValue base cs (acc * base + d)
    | none => none

/-- A number `<imm8>`: `0x` and two hexadecimal digits, or a decimal number from 0 to 255 (R63). -/
def imm8 : List Char → Option Byte
  | ['0', 'x', a, b] => (digitsValue 16 [a, b] 0).map (BitVec.ofNat 8)
  | cs =>
    match digitsValue 10 cs 0 with
    | some v => if v ≤ 255 then some (BitVec.ofNat 8 v) else none
    | none => none

/-- The bytes one operand stands for. A string is an operand of `E.BYTES` and `E.STREAM` alone (R64). -/
def operandBytes (allowText : Bool) : Token → Option (List Byte)
  | .word cs => (imm8 cs).map ([·])
  | .char c => some [BitVec.ofNat 8 c.toNat]
  | .text cs => if allowText then some (cs.map fun c => BitVec.ofNat 8 c.toNat) else none
  | .comma => none

/-- The bytes of a list of one or more operands separated by commas. -/
def operandList (allowText : Bool) : List Token → Option (List Byte)
  | [t] => operandBytes allowText t
  | t :: .comma :: rest =>
    match operandBytes allowText t, operandList allowText rest with
    | some a, some b => some (a ++ b)
    | _, _ => none
  | _ => none

/-! ### Lines -/

/-- A word of a form that takes no operand. -/
def noOperand (w : CmdWord) (args : List Token) : Option (List CmdWord) := if args.isEmpty then some [w] else none

/-- `E.DATA <imm8>` or `D.DATA <imm8>`: exactly one operand. -/
def oneByte (op : BitVec 4) : List Token → Option (List CmdWord)
  | [t] => (operandBytes false t).map (·.map (cmdWord op))
  | _ => none

/-- `.word 0x8xx` to `.word 0xFxx`: three hexadecimal digits that spell a reserved word (R63). -/
def rawWord : List Token → Option (List CmdWord)
  | [.word ['0', 'x', a, b, c]] =>
    match digitsValue 16 [a, b, c] 0 with
    | some v => if 0x800 ≤ v then some [BitVec.ofNat 12 v] else none
    | none => none
  | _ => none

/-- The words of a mnemonic in capitals with its operands; every other spelling is refused (R63, R64). -/
def assembleForm (m : List Char) (args : List Token) : Option (List CmdWord) :=
  if m = ['N', 'O', 'P'] then noOperand 0x000 args
  else if m = ['G', '.', 'R', 'E', 'S', 'E', 'T'] then noOperand 0x400 args
  else if m = ['E', '.', 'R', 'E', 'S', 'E', 'T'] then noOperand 0x100 args
  else if m = ['E', '.', 'D', 'A', 'T', 'A'] then oneByte 0x2 args
  else if m = ['E', '.', 'E', 'N', 'D'] then noOperand 0x300 args
  else if m = ['D', '.', 'R', 'E', 'S', 'E', 'T'] then noOperand 0x500 args
  else if m = ['D', '.', 'D', 'A', 'T', 'A'] then oneByte 0x6 args
  else if m = ['D', '.', 'E', 'N', 'D'] then noOperand 0x700 args
  else if m = ['.', 'W', 'O', 'R', 'D'] then rawWord args
  else if m = ['E', '.', 'B', 'Y', 'T', 'E', 'S'] then (operandList true args).map eBytes
  else if m = ['E', '.', 'S', 'T', 'R', 'E', 'A', 'M'] then
    if args.isEmpty then some (eStream []) else (operandList true args).map eStream
  else if m = ['D', '.', 'B', 'Y', 'T', 'E', 'S'] then (operandList false args).map dBytes
  else if m = ['D', '.', 'S', 'T', 'R', 'E', 'A', 'M'] then (operandList false args).map dStream
  else none

/-- The words one line assembles to; `none` for a refused spelling. Mnemonics are case-insensitive (R63). -/
def assembleLine (line : List Char) : Option (List CmdWord) :=
  match scan line [] none with
  | some [] => some []
  | some (.word m :: args) => assembleForm (m.map Char.toUpper) args
  | _ => none

/-- The words of a program, line by line (R54); one refused line refuses it. -/
def assembleProgram : List (List Char) → Option (List CmdWord)
  | [] => some []
  | l :: ls =>
    match assembleLine l, assembleProgram ls with
    | some a, some b => some (a ++ b)
    | _, _ => none

/-! ### Writing a command out -/

/-- The hexadecimal digit of a value below 16. -/
def hexDigit (v : BitVec 4) : Char := if v.toNat < 10 then Char.ofNat (0x30 + v.toNat) else Char.ofNat (0x37 + v.toNat)

/-- `0xHH`. -/
def hexByte (b : Byte) : List Char := ['0', 'x', hexDigit (b.extractLsb' 4 4), hexDigit (b.extractLsb' 0 4)]

/-- The line that stands for a command (R63); a block kind is no command and has none. -/
def asmText : Instr → Option (List Char)
  | .nop => some ['N', 'O', 'P']
  | .eReset => some ['E', '.', 'R', 'E', 'S', 'E', 'T']
  | .eData b => some (['E', '.', 'D', 'A', 'T', 'A', ' '] ++ hexByte b)
  | .eEnd => some ['E', '.', 'E', 'N', 'D']
  | .gReset => some ['G', '.', 'R', 'E', 'S', 'E', 'T']
  | .dReset => some ['D', '.', 'R', 'E', 'S', 'E', 'T']
  | .dData b => some (['D', '.', 'D', 'A', 'T', 'A', ' '] ++ hexByte b)
  | .dEnd => some ['D', '.', 'E', 'N', 'D']
  | .reserved op data =>
    some (['.', 'w', 'o', 'r', 'd', ' ', '0', 'x'] ++ [hexDigit op, hexDigit (data.extractLsb' 4 4), hexDigit (data.extractLsb' 0 4)])
  | .blkData _ _ => none
  | .blkDataS _ _ => none
  | .blkFinal _ _ _ => none
  | .blkFinalS _ _ _ => none

end Sys2Proof.Machine
end

