-- ==== Sys2Proof/Machine/Backpressure.lean ====
section
/-! DEFINITION. The block with bounded output buffers (60_exceptions.md R123, 70_reset_and_hazards.md R138):
`OUT_FIFO_DEPTH` is an argument here. No instruction's meaning uses it, and `step` itself never stalls (log entry 7). -/

namespace Sys2Proof.Machine

open Sys2Proof

/-- The block, and how many bytes of each output stream the host has consumed. -/
structure Buffered where
  block : State
  encTaken : Nat
  decTaken : Nat
deriving DecidableEq, Repr

/-- The bytes of `ENC_OUT` the host has not consumed. -/
def Buffered.encHeld (b : Buffered) : Nat := b.block.encOut.length - b.encTaken

/-- The bytes of `DEC_OUT` the host has not consumed. -/
def Buffered.decHeld (b : Buffered) : Nat := b.block.decOut.length - b.decTaken

/-- One tick: the block accepts the oldest command presented, unless its output would exceed the depth of a buffer; then
it stalls and holds its state (R123). -/
def Buffered.tick (depth : Nat) (b : Buffered) : Buffered :=
  match step b.block with
  | .next t => if Buffered.encHeld { b with block := t } ≤ depth ∧ Buffered.decHeld { b with block := t } ≤ depth
      then { b with block := t } else b
  | .fault _ => b
  | .refused _ => b

/-- The host consumes up to `e` bytes of `ENC_OUT` and `d` bytes of `DEC_OUT`, in order (R122). -/
def Buffered.drain (e d : Nat) (b : Buffered) : Buffered :=
  { b with
    encTaken := min (b.encTaken + e) b.block.encOut.length
    decTaken := min (b.decTaken + d) b.block.decOut.length }

/-- What happens next: a tick of the block, or the host consuming output. -/
inductive PortEvent where
  | tick
  | drain (e d : Nat)
deriving DecidableEq, Repr

/-- One event. -/
def Buffered.on (depth : Nat) : PortEvent → Buffered → Buffered
  | .tick, b => b.tick depth
  | .drain e d, b => b.drain e d

/-- Events one after another. -/
def Buffered.run (depth : Nat) (evs : List PortEvent) (b : Buffered) : Buffered :=
  evs.foldl (fun b ev => b.on depth ev) b

end Sys2Proof.Machine
end

