-- ==== Sys2Proof/Safety.lean ====
section
/-! DEFINITION. What a safe run is, in the terms the claims use: the invariants of 10_state.md R30, the framing of
`ENC_OUT`, what two states have in common, and runs over presented commands. -/

namespace Sys2Proof

/-! ### Units (00_scope.md R14, 30_encoding.md R49) -/

/-- The unit a command is a step of. -/
inductive CodecUnit where
  | block
  | encoder
  | decoder
deriving DecidableEq, Repr

/-- The unit column of the opcode map (R49); a block kind is the decoder's. -/
def Instr.unit : Instr → CodecUnit
  | .nop => .block
  | .eReset => .encoder
  | .eData _ => .encoder
  | .eEnd => .encoder
  | .gReset => .block
  | .dReset => .decoder
  | .dData _ => .decoder
  | .dEnd => .decoder
  | .reserved _ _ => .block
  | .blkData _ _ => .decoder
  | .blkDataS _ _ => .decoder
  | .blkFinal _ _ _ => .decoder
  | .blkFinalS _ _ _ => .decoder

end Sys2Proof

namespace Sys2Proof.Machine

open Sys2Proof

/-! ### Invariants -/

/-- The invariants R30 lists that speak of one state. -/
structure State.Inv (s : State) : Prop where
  encOut_whole : s.encOut.length % 8 = 0
  done_cnt : s.decDone = true → s.decCnt = 0
  cnt_seen : s.decCnt ≠ 0 → s.decSeen = true
  done_seen : s.decDone = true → s.decSeen = true

/-- What R57, R60, R61 and R79 say of every block the encoder emits: a shifted payload is even, and a final block has 1
to 7 real bytes and zero bytes after them. -/
def legalBlock (h : Byte) (q : List Byte) : Bool :=
  (!hdrS h || q.all fun b => !b.getLsbD 0) &&
    (!hdrE h || (hdrLen h != 0 && (q.drop (hdrLen h).toNat).all fun b => b == 0x00))

/-- A byte stream is a sequence of whole legal blocks. -/
def framed : List Byte → Bool
  | [] => true
  | h :: q0 :: q1 :: q2 :: q3 :: q4 :: q5 :: q6 :: rest => legalBlock h [q0, q1, q2, q3, q4, q5, q6] && framed rest
  | _ => false

/-! ### What two states have in common -/

/-- The encoder's fields are the same. -/
structure SameEncoder (s t : State) : Prop where
  buf : t.encBuf = s.encBuf
  cnt : t.encCnt = s.encCnt
  out : t.encOut = s.encOut

/-- The decoder's fields are the same. -/
structure SameDecoder (s t : State) : Prop where
  buf : t.decBuf = s.decBuf
  cnt : t.decCnt = s.decCnt
  done : t.decDone = s.decDone
  seen : t.decSeen = s.decSeen
  result : t.decResult = s.decResult
  out : t.decOut = s.decOut

/-- What the encoder's state means: its count, the bytes that have a defined value (R17) and its output. -/
structure EncView where
  cnt : BitVec 3
  bytes : List Byte
  out : List Byte
deriving DecidableEq, Repr

/-- What the decoder's state means (R19 to R22). -/
structure DecView where
  cnt : BitVec 3
  bytes : List Byte
  done : Bool
  seen : Bool
  result : DecResult
  out : List Byte
deriving DecidableEq, Repr

/-- The encoder as the spec defines it: no stale buffer entry. -/
def State.encView (s : State) : EncView := ⟨s.encCnt, s.encBytes, s.encOut⟩

/-- The decoder as the spec defines it. -/
def State.decView (s : State) : DecView :=
  ⟨s.decCnt, s.decBytes, s.decDone, s.decSeen, s.decResult, s.decOut⟩

/-- Two states differ at most in buffer entries that have no defined value, and in the free values to come. -/
structure SameDefined (s t : State) : Prop where
  enc : t.encView = s.encView
  dec : t.decView = s.decView
  err : t.cmdErr = s.cmdErr
  port : t.port = s.port

/-! ### Runs -/

/-- The word is a command of unit `u`, or the global reset. -/
def concerns (u : CodecUnit) (w : CmdWord) : Bool :=
  (decodeCommand w).unit == u || decodeCommand w == .gReset

/-- The machine after it has accepted the commands `ws`, presented before any that wait on its port. -/
def runWords (ws : List CmdWord) (s : State) : Host.Outcome State Fault Refusal :=
  Host.Core.run Sys2Proof.core ws.length ({ s with port := ws ++ s.port } : State)

/-- No decoder stream is open. -/
structure DecoderClosed (s : State) : Prop where
  cnt : s.decCnt = 0
  done : s.decDone = false
  seen : s.decSeen = false

end Sys2Proof.Machine
end

