-- ==== Sys2Proof/Certificates/Slice0/Obligations.lean ====
section
/-! DEFINITION. The statements for the provers. Where a buffer entry has no defined value (10_state.md R17, R19) a
statement says nothing of it, so it holds for every free value; the counter `freeIx` is the model's own. So is the queue `port`
(log entry 4); that no instruction touches it is said once, in `NoInstructionStops`. -/

open Sys2Proof Sys2Proof.Machine

/-! ### Encodings (30_encoding.md) -/

/-- R54's words, and headers of 95_test_vectors.md 2.4, decode to the instructions R49 and R58 give them. That a block's
bits are numbered from its header byte on, and that a header alone (8 bits) stands for a block of 7 zero payload bytes, is
the model's choice (log entry 5). -/
def Obligations.WrittenOutWordsDecode : Prop :=
  decodeTableWord 16 0x261 = some (.eData 0x61) ∧
  decodeTableWord 16 0x300 = some .eEnd ∧
  decodeTableWord 16 0x6CF = some (.dData 0xCF) ∧
  decodeTableWord 16 0x400 = some .gReset ∧
  decodeTableWord 16 0x9AB = some (.reserved 0x9 0xAB) ∧
  decodeTableWord 8 0xFC = some (.blkData 0b111111 #v[0, 0, 0, 0, 0, 0, 0]) ∧
  decodeTableWord 64 0xCECCCAC8C6C4C22D = some (.blkDataS 0b001011 #v[0xC2, 0xC4, 0xC6, 0xC8, 0xCA, 0xCC, 0xCE]) ∧
  decodeTableWord 64 0x7766554433221102 = some (.blkFinal 0b000 0 #v[0x11, 0x22, 0x33, 0x44, 0x55, 0x66, 0x77]) ∧
  decodeTableWord 64 0xC6C4C2CF = some (.blkFinalS 0b110 3 #v[0xC2, 0xC4, 0xC6, 0, 0, 0, 0])

/-- Decoding the encoding of any well-formed instruction gives it back, at every value of every operand (R48 to R62). -/
def Obligations.DecodeAfterEncodeIsIdentity : Prop := ∀ i : Instr, i.WellFormed → decode (encode i) = i

/-- Encoding what a block decodes to gives the block back, bit for bit; encoding what a command word decodes to gives
the word back, with `DATA` cleared where it is ignored (R52). -/
def Obligations.EncodeAfterDecodeKeepsEveryReadBit : Prop :=
  (∀ blk : Block, encode (decodeBlock blk) = .block blk) ∧
  (∀ w : CmdWord, encode (decodeCommand w) =
    .command (if cmdOp w = 0x2 ∨ cmdOp w = 0x6 ∨ 8 ≤ (cmdOp w).toNat then w else cmdWord (cmdOp w) 0x00)) ∧
  (∀ w : CmdWord, (decodeCommand w).WellFormed) ∧ (∀ blk : Block, (decodeBlock blk).WellFormed)

/-- Each of the 4096 words belongs to exactly one `cmd12` row, and each of the 256 headers to exactly one `header8` row:
the row the decoder names (R48, R60, R66). -/
def Obligations.EveryWordHasExactlyOneRow : Prop :=
  (∀ w : CmdWord, (commandRows.filter (·.accepts w)).map (·.mnemonic) = [(decodeCommand w).mnemonic]) ∧
  (∀ (h : Byte) (q : Chunk),
    (headerRows.filter (·.accepts h)).map (·.mnemonic) = [(decodeBlock (blockOf h q)).mnemonic])

/-- R104: the `DATA` field of a command that takes no byte changes nothing, and sets no error. -/
def Obligations.IgnoredDataChangesNothing : Prop :=
  ∀ (op : BitVec 4) (d : Byte) (s : State), op ∈ ([0x0, 0x1, 0x3, 0x4, 0x5, 0x7] : List (BitVec 4)) →
    ∃ t, exec (decodeCommand (cmdWord op d)) s = .next t ∧ exec (decodeCommand (cmdWord op 0x00)) s = .next t ∧
      (s.cmdErr = false → t.cmdErr = false)

/-- The command word's sub-structure (R50): `OP[3]` marks the reserved space, and otherwise `OP[2]` selects the unit
unless `OP[1:0] = 0b00`, which is block-level. -/
def Obligations.OpcodeBitsSelectUnit : Prop :=
  ∀ w : CmdWord, (decodeCommand w).unit =
    (if (cmdOp w).getLsbD 3 ∨ (cmdOp w).extractLsb' 0 2 = 0b00#2 then .block
     else if (cmdOp w).getLsbD 2 then .decoder else .encoder)

/-- R63: every command has a line, and assembling it gives the command's word. -/
def Obligations.AssemblerInvertsItsText : Prop :=
  ∀ (i : Instr) (w : CmdWord), i.WellFormed → encode i = .command w →
    ∃ l, asmText i = some l ∧ assembleLine l = some [w]

/-! ### Datapath (40_datapath.md) -/

/-- R67: `PAR(b)` is the XOR of the byte's 8 bits. -/
def Obligations.ParityIsXorOfBits : Prop :=
  ∀ b : Byte, par b = (b.getLsbD 7 ^^ b.getLsbD 6 ^^ b.getLsbD 5 ^^ b.getLsbD 4 ^^ b.getLsbD 3 ^^ b.getLsbD 2 ^^
    b.getLsbD 1 ^^ b.getLsbD 0)

/-- R7, R69: where each payload byte's parity lands under either order, and the group inversion by byte 6. -/
def Obligations.ParityBitsLandByOrder : Prop :=
  ∀ (ch : Chunk) (i : Nat) (hi : i < 6),
    (parityValue .msbFirst ch).getLsbD (5 - i) = (par ch[i] ^^ par ch[6]) ∧
    (parityValue .lsbFirst ch).getLsbD i = (par ch[i] ^^ par ch[6])

/-- R56, R57, R74, R75: every field of both headers, under either parity order. -/
def Obligations.HeaderFieldsAreAsLaidOut : Prop :=
  ∀ (o : ParityOrder) (ch : Chunk) (s : Bool) (n : BitVec 3),
    (hdrS (headerBase o ch s) = s ∧ hdrE (headerBase o ch s) = false ∧
      hdrPv (headerBase o ch s) = parityValue o ch) ∧
    (hdrS (headerFinal o ch s n) = s ∧ hdrE (headerFinal o ch s n) = true ∧ hdrLen (headerFinal o ch s n) = n ∧
      hdrPvHi (headerFinal o ch s n) = (parityValue o ch).extractLsb' 3 3)

/-- R61, R70, R76: the 8 bytes of a block the encoder forms, from its real bytes alone. -/
def Obligations.FormedBlockLayout : Prop :=
  ∀ (o : ParityOrder) (buf : Chunk) (n : BitVec 3) (final : Bool),
    (formBlock o buf n final)[0] =
      (if final then headerFinal o (pad7 buf n) (shiftable (pad7 buf n) n) n
       else headerBase o (pad7 buf n) (shiftable (pad7 buf n) n)) ∧
    ∀ (j : Nat) (hj : j < 7), (formBlock o buf n final)[1 + j] =
      (if j < n.toNat then if ∀ (k : Nat) (hk : k < 7), k < n.toNat → buf[k] ≤ 0x7F#8 then buf[j] <<< 1 else buf[j]
       else 0x00)

/-- R78: the left shift keeps the parity of every byte up to 0x7F, so `PV` may be computed before or after it. -/
def Obligations.ShiftKeepsParity : Prop :=
  (∀ x : Byte, x ≤ 0x7F#8 → par (x <<< 1) = par x) ∧
  (∀ (o : ParityOrder) (buf : Chunk) (n : BitVec 3),
    parityValue o (shiftLanes (pad7 buf n) (shiftable (pad7 buf n) n)) = parityValue o (pad7 buf n))

/-- R79: what the shift flag says of the stored bytes. -/
def Obligations.ShiftFlagTellsStoredBytes : Prop :=
  ∀ (buf : Chunk) (n : BitVec 3) (q : Chunk), q = shiftLanes (pad7 buf n) (shiftable (pad7 buf n) n) →
    (shiftable (pad7 buf n) n = true → ∀ (j : Nat) (hj : j < 7), q[j].getLsbD 0 = false ∧ q[j] ≤ 0xFE#8) ∧
    (shiftable (pad7 buf n) n = false →
      q = pad7 buf n ∧ ∃ (j : Nat) (hj : j < 7), j < n.toNat ∧ 0x80#8 ≤ buf[j])

/-- R80: shift reversibility, and the round trip of one block, for both parity orders. -/
def Obligations.BlockRoundTrip : Prop :=
  (∀ (buf : Chunk) (n : BitVec 3),
    unshiftLanes (shiftLanes (pad7 buf n) (shiftable (pad7 buf n) n)) (shiftable (pad7 buf n) n) = pad7 buf n) ∧
  (∀ (o : ParityOrder) (buf : Chunk) (n : BitVec 3), n ≠ 0 →
    splitBlock (formBlock o buf n true) = (true, buf.toList.take n.toNat)) ∧
  (∀ (o : ParityOrder) (buf : Chunk), splitBlock (formBlock o buf 7 false) = (false, buf.toList))

/-- R91: running the block kind that the header selects (R96 to R99) is the block demux step. -/
def Obligations.ProcessBlockIsSplitBlock : Prop :=
  ∀ (blk : Block) (s : State), processBlock blk s =
    (if (splitBlock blk).1 then { s with decOut := s.decOut ++ (splitBlock blk).2, decDone := true }
     else { s with decOut := s.decOut ++ (splitBlock blk).2 })

/-- R59: two headers with the same `S` and `E`, and the same `LEN` if they are final, are the same to the decoder. -/
def Obligations.InformationalBitsIgnored : Prop :=
  ∀ (h g : Byte) (q : Chunk) (s : State), hdrS h = hdrS g → hdrE h = hdrE g → (hdrE h = true → hdrLen h = hdrLen g) →
    exec (decodeBlock (blockOf h q)) s = exec (decodeBlock (blockOf g q)) s

/-! ### Steps -/

/-- One step accepts the oldest command presented and is the meaning of the instruction it decodes to, at the state
without that command; with none presented the block is idle (R11, R48, R125; the port is the model's own, log entry 4). -/
def Obligations.StepRunsTheDecodedCommand : Prop :=
  (∀ (w : CmdWord) (rest : List CmdWord) (s : State), s.port = w :: rest →
    step s = exec (decodeCommand w) { s with port := rest }) ∧
  (∀ s : State, s.port = [] → step s = .next s)

/-- `D.DATA` with the eighth byte of a block runs the block kind those 8 bytes decode to, then clears `DEC_CNT`
(R90, R91). -/
def Obligations.EighthByteRunsTheBlockKind : Prop :=
  ∀ (b : Byte) (s : State), s.decDone = false → s.decCnt = 7 →
    ∃ t u, exec (.dData b) s = .next t ∧ exec (decodeBlock (s.decBuf.set 7 b)) s = .next u ∧
      t.decOut = u.decOut ∧ t.decDone = u.decDone ∧ t.decResult = u.decResult ∧ t.decSeen = true ∧ t.decCnt = 0 ∧
      SameEncoder u t ∧ t.cmdErr = u.cmdErr ∧ t.port = u.port

/-- What `withFetchWord` places is what the next step runs: a command word exactly, a block as the block its decoder
completes. It places the encoding that `decodeTableWord` decodes, whose bits are those of the command word, of the block,
or of the header of a block of zero bytes. How words are numbered and placed is the model's choice (log entry 5). -/
def Obligations.FetchedEncodingIsWhatRuns : Prop :=
  (∀ (w : CmdWord) (s : State), step (s.withFetched (.command w)) = exec (decodeCommand w) s) ∧
  (∀ (blk : Block) (s : State), ∃ t u, step (s.withFetched (.block blk)) = .next t ∧
    exec (decodeBlock blk) { s with decDone := false } = .next u ∧
    t.decOut = u.decOut ∧ t.decDone = u.decDone ∧ t.decResult = u.decResult ∧
    SameEncoder u t ∧ t.cmdErr = u.cmdErr ∧ t.port = u.port) ∧
  (∀ (nbits w : Nat) (e : Encoding) (s : State), tableEncoding nbits w = .ok e →
    s.withFetchWord nbits w = s.withFetched e ∧ decodeTableWord nbits w = some (decode e)) ∧
  (∀ w : CmdWord, tableEncoding 16 w.toNat = .ok (.command w) ∧ tableEncoding 12 w.toNat = .ok (.command w)) ∧
  (∀ blk : Block, tableEncoding 64 (blk.toList.foldr (fun b n => b.toNat + 256 * n) 0) = .ok (.block blk)) ∧
  (∀ h : Byte, tableEncoding 8 h.toNat = .ok (.block (blockOf h (Vector.replicate 7 0))))

/-- No instruction ends in a fault or a refusal (R109, R112), none reaches into the commands still to come, and so no
step stops. -/
def Obligations.NoInstructionStops : Prop :=
  (∀ (i : Instr) (s : State), ∃ t, exec i s = .next t ∧ t.port = s.port) ∧
  (∀ s : State, ∃ t, step s = .next t ∧ t.port = s.port.tail)

/-! ### Reset and status (10_state.md, 43_global.md, 70_reset_and_hazards.md) -/

/-- R126: the state when power-on reset completes; with no command presented (`port` is the
model's own, log entry 4) the block waits. -/
def Obligations.PowerOnResetState : Prop :=
  State.reset.encCnt = 0 ∧ State.reset.decCnt = 0 ∧ State.reset.decDone = false ∧ State.reset.decSeen = false ∧
  State.reset.decResult = .none ∧ State.reset.cmdErr = false ∧ State.reset.status = 0x0000 ∧
  State.reset.encOut = [] ∧ State.reset.decOut = [] ∧ step State.reset = .next State.reset

/-- R27: every field of `STATUS`, and the reserved bits, which read 0; R22, R110: the four codes of `DEC_RESULT`. -/
def Obligations.StatusLayout : Prop :=
  (DecResult.none.code = 0b00 ∧ DecResult.ok.code = 0b01 ∧ DecResult.okEmpty.code = 0b10 ∧
    DecResult.framingError.code = 0b11) ∧
  ∀ s : State,
    s.status.extractLsb' 0 3 = s.encCnt ∧ s.status.getLsbD 3 = false ∧ s.status.extractLsb' 4 3 = s.decCnt ∧
    s.status.getLsbD 7 = s.decDone ∧ s.status.getLsbD 8 = s.decSeen ∧ s.status.extractLsb' 9 2 = s.decResult.code ∧
    s.status.getLsbD 11 = s.cmdErr ∧ s.status.extractLsb' 12 4 = 0x0#4

/-- R101: `G.RESET` clears every `STATUS` field, emits nothing, and keeps what was emitted; no other command clears
`CMD_ERR`. -/
def Obligations.GlobalResetResult : Prop :=
  (∀ d : Byte, decodeCommand (cmdWord 0x4 d) = .gReset) ∧ encode .gReset = .command 0x400 ∧
  (∀ (i : Instr) (s : State), s.cmdErr = true → i ≠ .gReset → ∃ t, exec i s = .next t ∧ t.cmdErr = true) ∧
  ∀ s : State, ∃ t, exec .gReset s = .next t ∧ t.encCnt = 0 ∧ t.decCnt = 0 ∧ t.decDone = false ∧ t.decSeen = false ∧
    t.decResult = .none ∧ t.cmdErr = false ∧ t.status = 0x0000 ∧ t.encOut = s.encOut ∧ t.decOut = s.decOut

/-- R102: `NOP` leaves every field of the state as it is, inside a stream too. -/
def Obligations.NopHasNoEffect : Prop :=
  (∀ d : Byte, decodeCommand (cmdWord 0x0 d) = .nop) ∧ encode .nop = .command 0x000 ∧ (∀ s : State, exec .nop s = .next s) ∧
  ∀ (a b : Byte) (s : State),
    runWords [cmdWord 0x2 a, cmdWord 0x0 0x00, cmdWord 0x2 b] s = runWords [cmdWord 0x2 a, cmdWord 0x2 b] s

/-- R103, R108: a reserved word decodes to the reserved command, whose one effect is `CMD_ERR = 1`. -/
def Obligations.ReservedCommandResult : Prop :=
  (∀ w : CmdWord, w &&& 0x800 = 0x800 → decodeCommand w = .reserved (cmdOp w) (cmdData w)) ∧
  ∀ (op : BitVec 4) (data : Byte) (s : State), exec (.reserved op data) s = .next { s with cmdErr := true }

/-- R10, R112: taking an exception records its code and nothing else. -/
def Obligations.ExceptionRecordsOnlyItsCode : Prop :=
  (∀ (n : BitVec 3) (s : State), s.raise (.framingError n) = { s with decResult := .framingError }) ∧
  (∀ (w : CmdWord) (s : State), s.raise (.illegalCommand w) = { s with cmdErr := true })

/-! ### Encoder commands (41_encoder.md) -/

/-- R82: `E.RESET` discards the open chunk and emits nothing. -/
def Obligations.EncoderResetResult : Prop :=
  (∀ d : Byte, decodeCommand (cmdWord 0x1 d) = .eReset) ∧ encode .eReset = .command 0x100 ∧
  ∀ s : State, ∃ t, exec .eReset s = .next t ∧ t.encCnt = 0 ∧ t.encOut = s.encOut ∧ SameDecoder s t ∧
    t.cmdErr = s.cmdErr ∧ (s.encCnt = 0 → t = s)

/-- R83: `E.DATA b` appends `b` to the open chunk, or first emits a full chunk as a non-final block, whatever
`PARITY_ORDER` is (log entry 1). -/
def Obligations.EncoderDataResult : Prop :=
  (∀ b : Byte, decodeCommand (cmdWord 0x2 b) = .eData b ∧ encode (.eData b) = .command (cmdWord 0x2 b)) ∧
  ∀ (b : Byte) (s : State), ∃ t, exec (.eData b) s = .next t ∧
    t.encCnt = (if s.encCnt = 7 then 1 else s.encCnt + 1) ∧
    t.encBytes = (if s.encCnt = 7 then [b] else s.encBytes ++ [b]) ∧
    t.encOut = (if s.encCnt = 7 then s.encOut ++ (formBlock Config.parityOrder s.encBuf 7 false).toList
      else s.encOut) ∧
    SameDecoder s t ∧ t.cmdErr = s.cmdErr

/-- R84: `E.END` emits the held chunk as the final block of an open stream, and nothing for an empty one, whatever
`PARITY_ORDER` is (log entry 1). -/
def Obligations.EncoderEndResult : Prop :=
  (∀ d : Byte, decodeCommand (cmdWord 0x3 d) = .eEnd) ∧ encode .eEnd = .command 0x300 ∧
  ∀ s : State, ∃ t, exec .eEnd s = .next t ∧ t.encCnt = 0 ∧
    t.encOut = (if s.encCnt = 0 then s.encOut
      else s.encOut ++ (formBlock Config.parityOrder s.encBuf s.encCnt true).toList) ∧
    SameDecoder s t ∧ t.cmdErr = s.cmdErr

/-- R81: an encoder command changes no decoder field and no `CMD_ERR`, and always completes. -/
def Obligations.EncoderCommandsKeepDecoder : Prop :=
  ∀ (i : Instr) (s : State), i.unit = .encoder →
    ∃ t, exec i s = .next t ∧ SameDecoder s t ∧ t.cmdErr = s.cmdErr

/-! ### Decoder commands and block kinds (42_decoder.md) -/

/-- R89: `D.RESET` closes the decoder's stream, drops a partial block and forgets the result. -/
def Obligations.DecoderResetResult : Prop :=
  (∀ d : Byte, decodeCommand (cmdWord 0x5 d) = .dReset) ∧ encode .dReset = .command 0x500 ∧
  ∀ s : State, ∃ t, exec .dReset s = .next t ∧ t.decCnt = 0 ∧ t.decDone = false ∧ t.decSeen = false ∧
    t.decResult = .none ∧ t.decOut = s.decOut ∧ SameEncoder s t ∧ t.cmdErr = s.cmdErr

/-- R90, R93: `D.DATA b` in its three cases: ignored after the final block, completing a block, and joining one. -/
def Obligations.DecoderDataResult : Prop :=
  (∀ b : Byte, decodeCommand (cmdWord 0x6 b) = .dData b ∧ encode (.dData b) = .command (cmdWord 0x6 b)) ∧
  ∀ (b : Byte) (s : State), ∃ t, exec (.dData b) s = .next t ∧
    (if s.decDone = true then t = s
     else t.decSeen = true ∧ t.decResult = s.decResult ∧
      if s.decCnt = 7 then
        t.decCnt = 0 ∧ t.decOut = s.decOut ++ (splitBlock (s.decBuf.set 7 b)).2 ∧
          t.decDone = (splitBlock (s.decBuf.set 7 b)).1
      else t.decCnt = s.decCnt + 1 ∧ t.decBytes = s.decBytes ++ [b] ∧ t.decOut = s.decOut ∧ t.decDone = false) ∧
    SameEncoder s t ∧ t.cmdErr = s.cmdErr

/-- R95: `D.END` records the outcome, emits nothing and closes the stream. -/
def Obligations.DecoderEndResult : Prop :=
  (∀ d : Byte, decodeCommand (cmdWord 0x7 d) = .dEnd) ∧ encode .dEnd = .command 0x700 ∧
  ∀ s : State, ∃ t, exec .dEnd s = .next t ∧
    t.decResult = (if s.decDone then .ok else if s.decSeen then .framingError else .okEmpty) ∧
    t.decCnt = 0 ∧ t.decDone = false ∧ t.decSeen = false ∧ t.decOut = s.decOut ∧ SameEncoder s t ∧
    t.cmdErr = s.cmdErr

/-- R96: `BLK.DATA` emits its 7 stored bytes as they stand. -/
def Obligations.BlkDataResult : Prop :=
  (∀ (h : Byte) (q : Chunk), h &&& 0x03 = 0x00 → decodeBlock (blockOf h q) = .blkData (h.extractLsb' 2 6) q) ∧
  ∀ (pv : BitVec 6) (q : Chunk) (s : State), exec (.blkData pv q) s =
    .next { s with decOut := s.decOut ++ [q[0], q[1], q[2], q[3], q[4], q[5], q[6]] }

/-- R97: `BLK.DATA.S` emits its 7 stored bytes, each shifted right by one. -/
def Obligations.BlkDataSResult : Prop :=
  (∀ (h : Byte) (q : Chunk), h &&& 0x03 = 0x01 → decodeBlock (blockOf h q) = .blkDataS (h.extractLsb' 2 6) q) ∧
  ∀ (pv : BitVec 6) (q : Chunk) (s : State), exec (.blkDataS pv q) s =
    .next { s with decOut := s.decOut ++
      [q[0] >>> 1, q[1] >>> 1, q[2] >>> 1, q[3] >>> 1, q[4] >>> 1, q[5] >>> 1, q[6] >>> 1] }

/-- R98: `BLK.FINAL` emits its first `LEN` stored bytes and ends the stream. -/
def Obligations.BlkFinalResult : Prop :=
  (∀ (h : Byte) (q : Chunk), h &&& 0x03 = 0x02 →
    decodeBlock (blockOf h q) = .blkFinal (h.extractLsb' 5 3) (h.extractLsb' 2 3) q) ∧
  ∀ (pvHi len : BitVec 3) (q : Chunk) (s : State), exec (.blkFinal pvHi len q) s =
    .next { s with
      decOut := s.decOut ++ [q[0], q[1], q[2], q[3], q[4], q[5], q[6]].take len.toNat
      decDone := true }

/-- R99: `BLK.FINAL.S` emits its first `LEN` stored bytes, each shifted right by one, and ends the stream. -/
def Obligations.BlkFinalSResult : Prop :=
  (∀ (h : Byte) (q : Chunk), h &&& 0x03 = 0x03 →
    decodeBlock (blockOf h q) = .blkFinalS (h.extractLsb' 5 3) (h.extractLsb' 2 3) q) ∧
  ∀ (pvHi len : BitVec 3) (q : Chunk) (s : State), exec (.blkFinalS pvHi len q) s =
    .next { s with
      decOut := s.decOut ++
        [q[0] >>> 1, q[1] >>> 1, q[2] >>> 1, q[3] >>> 1, q[4] >>> 1, q[5] >>> 1, q[6] >>> 1].take len.toNat
      decDone := true }

/-- R14, R120: a decoder command or block kind changes no encoder field and no `CMD_ERR`, and always completes. -/
def Obligations.DecoderCommandsKeepEncoder : Prop :=
  ∀ (i : Instr) (s : State), i.unit = .decoder →
    ∃ t, exec i s = .next t ∧ SameEncoder s t ∧ t.cmdErr = s.cmdErr

/-! ### Rules over every instruction -/

/-- R24, R42: the streams only grow, at most one of them in a step, the encoder's by whole blocks and the decoder's by at
most 7 bytes. -/
def Obligations.OutputsOnlyGrow : Prop :=
  ∀ (i : Instr) (s : State), ∃ t a b, exec i s = .next t ∧ t.encOut = s.encOut ++ a ∧ t.decOut = s.decOut ++ b ∧
    (a = [] ∨ b = []) ∧ (a.length = 0 ∨ a.length = 8) ∧ b.length ≤ 7

/-- R23: `CMD_ERR` is set by reserved commands alone and cleared by `G.RESET` and power-on reset alone. -/
def Obligations.CmdErrIsSticky : Prop :=
  State.reset.cmdErr = false ∧
  ∀ (i : Instr) (s : State), ∃ t, exec i s = .next t ∧
    (t.cmdErr = true ↔ (∃ op data, i = .reserved op data) ∨ s.cmdErr = true ∧ i ≠ .gReset)

/-- R22: only `D.END`, `D.RESET` and `G.RESET` write `DEC_RESULT`; after `D.END` it is never `NONE`, and after a reset of the
decoder it is. -/
def Obligations.DecResultWriters : Prop :=
  ∀ (i : Instr) (s : State), ∃ t, exec i s = .next t ∧
    (i = .dEnd → t.decResult ≠ .none) ∧ (i = .dReset ∨ i = .gReset → t.decResult = .none) ∧
    (i ≠ .dEnd → i ≠ .dReset → i ≠ .gReset → t.decResult = s.decResult)

/-- R106: `FRAMING_ERROR` is raised by `D.END` alone, and only when `DEC_DONE = 0` and `DEC_SEEN = 1`; the count of the
partial block is cleared in the same step. -/
def Obligations.FramingErrorOnlyAtEnd : Prop :=
  ∀ (i : Instr) (s : State), s.decResult ≠ .framingError → ∃ t, exec i s = .next t ∧
    (t.decResult = .framingError ↔ i = .dEnd ∧ s.decDone = false ∧ s.decSeen = true) ∧
    (t.decResult = .framingError → t.decCnt = 0)

/-- R92: once the final block was processed, the decoder reads and emits nothing until `D.END`, `D.RESET` or `G.RESET`,
whatever other commands arrive. -/
def Obligations.DecoderStopsAfterFinalBlock : Prop :=
  ∀ (ws : List CmdWord) (s : State), s.decDone = true →
    (∀ w ∈ ws, decodeCommand w ≠ .dEnd ∧ decodeCommand w ≠ .dReset ∧ decodeCommand w ≠ .gReset) →
    ∃ t, runWords ws s = .next t ∧ SameDecoder s t

/-- R17, R19, R29: a buffer entry that has no defined value reaches no output and no other state: two states that differ
in such entries alone still do after any instruction, whatever free values each draws. -/
def Obligations.StaleBytesNeverShow : Prop :=
  ∀ (i : Instr) (s u : State), SameDefined s u →
    ∃ t v, exec i s = .next t ∧ exec i u = .next v ∧ SameDefined t v

/-- R30: every step keeps the invariants. -/
def Obligations.StepKeepsInvariants : Prop := ∀ s t : State, s.Inv → step s = .next t → t.Inv

/-- R30: the invariants hold after power-on reset. -/
def Obligations.ResetMeetsInvariants : Prop := State.reset.Inv

/-- R57, R60, R61, R79: every step keeps `ENC_OUT` a sequence of whole legal blocks: shifted payloads even, final blocks
with 1 to 7 real bytes and zero padding. -/
def Obligations.StepKeepsEncOutFramed : Prop :=
  ∀ s t : State, framed s.encOut = true → step s = .next t → framed t.encOut = true

/-- R120, R136: interleaved in any order, each unit does what its own commands (and `G.RESET`) do alone. -/
def Obligations.UnitsRunIndependently : Prop :=
  ∀ (ws : List CmdWord) (s : State), ∃ t u v, runWords ws s = .next t ∧
    runWords (ws.filter (concerns .encoder)) s = .next u ∧ runWords (ws.filter (concerns .decoder)) s = .next v ∧
    t.encView = u.encView ∧ t.decView = v.decView

/-! ### Whole streams -/

/-- R85: the commands of a stream emit exactly the source's framing of it, whose length and last block are as R85
says. -/
def Obligations.EncoderMeetsSource : Prop :=
  (∀ (b : List Byte) (s : State), s.encCnt = 0 →
    ∃ t, runWords (eStream b) s = .next t ∧ t.encOut = s.encOut ++ sourceEncode Config.parityOrder b ∧
      t.encCnt = 0 ∧ SameDecoder s t ∧ t.cmdErr = s.cmdErr) ∧
  (∀ (o : ParityOrder) (b : List Byte), (sourceEncode o b).length = 8 * blockCount b) ∧
  (∀ b : List Byte, b ≠ [] → b.length - 7 * (blockCount b - 1) = (b.length - 1) % 7 + 1)

/-- R86: a non-empty stream leaves the encoder as whole blocks of which exactly the last has its end bit set. What the
blocks carry, in order, is the stream's own bytes: 7 of them in every block but the last, and 1 to 7 in the last. -/
def Obligations.SingleEndMarker : Prop :=
  ∀ (b : List Byte) (s : State), b ≠ [] → s.encCnt = 0 →
    ∃ (t : State) (front : List Block) (last : Block), runWords (eStream b) s = .next t ∧
      t.encOut = s.encOut ++ (front ++ [last]).flatMap (·.toList) ∧ hdrE last[0] = true ∧
      (∀ blk ∈ front, hdrE blk[0] = false ∧ (splitBlock blk).2.length = 7) ∧
      b = front.flatMap (fun blk => (splitBlock blk).2) ++ (splitBlock last).2 ∧
      1 ≤ (splitBlock last).2.length ∧ (splitBlock last).2.length ≤ 7

/-- R87: streams encoded one after another leave `ENC_OUT` as the concatenation of each stream's own encoding. -/
def Obligations.StreamsEncodeIndependently : Prop :=
  ∀ (bs : List (List Byte)) (s : State), s.encCnt = 0 →
    ∃ t, runWords (bs.flatMap eStream) s = .next t ∧ t.encCnt = 0 ∧
      t.encOut = s.encOut ++ bs.flatMap (sourceEncode Config.parityOrder)

/-- R107: a decoder stream emits the bytes, and `D.END` records the outcome, that the source's decoder gives. -/
def Obligations.DecoderMeetsSource : Prop :=
  ∀ (x : List Byte) (s : State), DecoderClosed s →
    ∃ t, runWords (dStream x) s = .next t ∧ t.decOut = s.decOut ++ (sourceDecode x).1 ∧
      t.decResult = (sourceDecode x).2 ∧ DecoderClosed t ∧ SameEncoder s t ∧ t.cmdErr = s.cmdErr

/-- R100: what the encoder emits for `b`, with any bytes after it (none if `b` is empty), decodes to `b`; a non-empty tail
with no final block gives a framing error. -/
def Obligations.CodecRoundTrip : Prop :=
  (∀ (b tail : List Byte) (s : State), s.encCnt = 0 → DecoderClosed s → (b = [] → tail = []) →
    ∃ t u e, runWords (eStream b) s = .next t ∧ t.encOut = s.encOut ++ e ∧
      runWords (dStream (e ++ tail)) t = .next u ∧ u.decOut = s.decOut ++ b ∧
      u.decResult = (if b = [] then .okEmpty else .ok) ∧ DecoderClosed u) ∧
  (∀ (tail : List Byte) (s : State), DecoderClosed s → tail ≠ [] →
    (∀ k, 8 * k + 8 ≤ tail.length → hdrE (tail.getD (8 * k) 0x00) = false) →
    ∃ u, runWords (dStream tail) s = .next u ∧ u.decResult = .framingError)

/-- R88, R93, R121: the framed stream with the host's padding has a length that is a multiple of 3, and decodes to what
was encoded. What a ratio adds to an empty stream the spec does not give (91_not_in_source.md): the premise leaves that case
out, and what `hostPad` gives there is the model's choice (log entry 9). -/
def Obligations.HostPaddedEncodingDecodes : Prop :=
  ∀ (o : ParityOrder) (b : List Byte) (extra : Nat), (b = [] → extra = 0) →
    (hostPad extra (sourceEncode o b)).length % 3 = 0 ∧
    sourceDecode (hostPad extra (sourceEncode o b)) = (b, if b = [] then .okEmpty else .ok)

/-! ### Backpressure (60_exceptions.md, 70_reset_and_hazards.md) -/

/-- R123, R138: whatever the depth and however the host drains, the block's state is that of some number of unstalled
steps, at most one for each tick. -/
def Obligations.StallsOnlyDelay : Prop :=
  ∀ (depth : Nat) (evs : List PortEvent) (b : Buffered), ∃ k, k ≤ evs.count .tick ∧
    Host.Core.run Sys2Proof.core k b.block = .next (b.run depth evs).block

/-- R123: no more than the buffers' depth is ever held undelivered, and a block whose output the host has consumed
accepts its next command if the buffers can hold one block. -/
def Obligations.BuffersHoldTheirDepth : Prop :=
  (∀ (depth : Nat) (evs : List PortEvent) (b : Buffered), b.encHeld ≤ depth → b.decHeld ≤ depth →
    (b.run depth evs).encHeld ≤ depth ∧ (b.run depth evs).decHeld ≤ depth) ∧
  (∀ (depth : Nat) (b : Buffered), 8 ≤ depth → b.encHeld = 0 → b.decHeld = 0 →
    step b.block = .next (b.tick depth).block)
end

