-- ==== Sys2Proof/Laws/Decode.lean ====
section
/-! SUPPORT. The fields of a word and of a header laid out from its fields, and what a laid-out word decodes to. -/

namespace Sys2Proof

@[simp] theorem cmdOp_cmdWord (op : BitVec 4) (d : Byte) : cmdOp (cmdWord op d) = op := by
  apply BitVec.eq_of_getLsbD_eq
  intro i hi
  simp only [cmdOp, cmdWord, BitVec.getLsbD_extractLsb', BitVec.getLsbD_append]
  simp [hi]

@[simp] theorem cmdData_cmdWord (op : BitVec 4) (d : Byte) : cmdData (cmdWord op d) = d := by
  apply BitVec.eq_of_getLsbD_eq
  intro i hi
  simp only [cmdData, cmdWord, BitVec.getLsbD_extractLsb', BitVec.getLsbD_append]
  simp [hi]

@[simp] theorem cmdWord_fields (w : CmdWord) : cmdWord (cmdOp w) (cmdData w) = w := by
  apply BitVec.eq_of_getLsbD_eq
  intro i hi
  simp only [cmdWord, cmdOp, cmdData, BitVec.getLsbD_append, BitVec.getLsbD_extractLsb']
  by_cases h : i < 8
  · simp [h]
  · simp [h, show i - 8 < 4 by omega, show 8 + (i - 8) = i by omega]

/-- Masking with 0xF00 keeps `OP` and clears `DATA`. -/
theorem cmdWord_and_F00 (op : BitVec 4) (d : Byte) : cmdWord op d &&& 0xF00 = cmdWord op 0x00 := by
  apply BitVec.eq_of_getLsbD_eq
  intro i hi
  unfold cmdWord
  rw [BitVec.getLsbD_and]
  simp only [BitVec.getLsbD_append]
  interval_cases i <;> simp

/-- Masking with 0x800 keeps `OP[3]` alone. -/
theorem cmdWord_and_800 (op : BitVec 4) (d : Byte) : cmdWord op d &&& 0x800 = cmdWord (op &&& 0x8) 0x00 := by
  apply BitVec.eq_of_getLsbD_eq
  intro i hi
  unfold cmdWord
  rw [BitVec.getLsbD_and]
  simp only [BitVec.getLsbD_append]
  interval_cases i <;> simp

@[simp] theorem hdrS_hdrData (pv : BitVec 6) (s : Bool) : hdrS (hdrData pv s) = s := by
  revert pv s; decide

@[simp] theorem hdrE_hdrData (pv : BitVec 6) (s : Bool) : hdrE (hdrData pv s) = false := by
  revert pv s; decide

@[simp] theorem hdrPv_hdrData (pv : BitVec 6) (s : Bool) : hdrPv (hdrData pv s) = pv := by
  revert pv s; decide

@[simp] theorem hdrS_hdrFinal (p n : BitVec 3) (s : Bool) : hdrS (hdrFinal p n s) = s := by
  revert p n s; decide

@[simp] theorem hdrE_hdrFinal (p n : BitVec 3) (s : Bool) : hdrE (hdrFinal p n s) = true := by
  revert p n s; decide

@[simp] theorem hdrLen_hdrFinal (p n : BitVec 3) (s : Bool) : hdrLen (hdrFinal p n s) = n := by
  revert p n s; decide

@[simp] theorem hdrPvHi_hdrFinal (p n : BitVec 3) (s : Bool) : hdrPvHi (hdrFinal p n s) = p := by
  revert p n s; decide

@[simp] theorem blockPayload_blockOf (h : Byte) (q : Chunk) : blockPayload (blockOf h q) = q := by
  ext j hj
  interval_cases j <;> rfl

@[simp] theorem blockOf_header (h : Byte) (q : Chunk) : (blockOf h q)[0] = h := rfl

@[simp] theorem blockOf_fields (blk : Block) : blockOf blk[0] (blockPayload blk) = blk := by
  ext j hj
  interval_cases j <;> rfl

theorem hdrData_fields (h : Byte) (he : hdrE h = false) : hdrData (hdrPv h) (hdrS h) = h := by
  revert h; decide

theorem hdrFinal_fields (h : Byte) (he : hdrE h = true) : hdrFinal (hdrPvHi h) (hdrLen h) (hdrS h) = h := by
  revert h; decide

/-! ### What a laid-out word decodes to (R49) -/

section

variable (d : Byte)

@[simp] theorem decodeCommand_nop : decodeCommand (cmdWord 0x0#4 d) = .nop := by simp [decodeCommand]
@[simp] theorem decodeCommand_eReset : decodeCommand (cmdWord 0x1#4 d) = .eReset := by simp [decodeCommand]
@[simp] theorem decodeCommand_eData : decodeCommand (cmdWord 0x2#4 d) = .eData d := by simp [decodeCommand]
@[simp] theorem decodeCommand_eEnd : decodeCommand (cmdWord 0x3#4 d) = .eEnd := by simp [decodeCommand]
@[simp] theorem decodeCommand_gReset : decodeCommand (cmdWord 0x4#4 d) = .gReset := by simp [decodeCommand]
@[simp] theorem decodeCommand_dReset : decodeCommand (cmdWord 0x5#4 d) = .dReset := by simp [decodeCommand]
@[simp] theorem decodeCommand_dData : decodeCommand (cmdWord 0x6#4 d) = .dData d := by simp [decodeCommand]
@[simp] theorem decodeCommand_dEnd : decodeCommand (cmdWord 0x7#4 d) = .dEnd := by simp [decodeCommand]

end

/-- Every `OP` the opcode map does not name is reserved (R53). -/
theorem decodeCommand_reserved {op : BitVec 4} (d : Byte) (h : 8 ≤ op.toNat) :
    decodeCommand (cmdWord op d) = .reserved op d := by
  unfold decodeCommand
  split <;> simp_all

/-- Every command word is one of the eight commands' or a reserved one. -/
theorem commandWord_cases {motive : CmdWord → Prop}
    (nop : ∀ d, motive (cmdWord 0x0#4 d)) (eReset : ∀ d, motive (cmdWord 0x1#4 d))
    (eData : ∀ d, motive (cmdWord 0x2#4 d)) (eEnd : ∀ d, motive (cmdWord 0x3#4 d))
    (gReset : ∀ d, motive (cmdWord 0x4#4 d)) (dReset : ∀ d, motive (cmdWord 0x5#4 d))
    (dData : ∀ d, motive (cmdWord 0x6#4 d)) (dEnd : ∀ d, motive (cmdWord 0x7#4 d))
    (reserved : ∀ op d, 8 ≤ op.toNat → motive (cmdWord op d)) (w : CmdWord) : motive w := by
  rw [← cmdWord_fields w]
  generalize cmdOp w = op, cmdData w = d
  have h : op = 0x0#4 ∨ op = 0x1#4 ∨ op = 0x2#4 ∨ op = 0x3#4 ∨ op = 0x4#4 ∨ op = 0x5#4 ∨ op = 0x6#4 ∨ op = 0x7#4 ∨
      8 ≤ op.toNat := by
    revert op; decide
  rcases h with rfl | rfl | rfl | rfl | rfl | rfl | rfl | rfl | h
  exacts [nop d, eReset d, eData d, eEnd d, gReset d, dReset d, dData d, dEnd d, reserved op d h]

/-! ### Numbers as the table numbers them: byte 0 the least significant -/

@[simp] theorem byteOfNat_first (b : Byte) (n : Nat) : byteOfNat (b.toNat + 256 * n) 0 = b := by
  apply BitVec.eq_of_toNat_eq
  have h := b.isLt
  simp only [byteOfNat, Nat.mul_zero, Nat.shiftRight_zero, BitVec.toNat_ofNat]
  omega

@[simp] theorem byteOfNat_rest (b : Byte) (n j : Nat) : byteOfNat (b.toNat + 256 * n) (j + 1) = byteOfNat n j := by
  have h := b.isLt
  have hd : (b.toNat + 256 * n) / 2 ^ 8 = n := by omega
  unfold byteOfNat
  rw [show 8 * (j + 1) = 8 + 8 * j by omega, Nat.shiftRight_add, Nat.shiftRight_eq_div_pow _ 8, hd]

end Sys2Proof
end

