-- ==== Sys2Proof/Laws/Datapath.lean ====
section
/-! SUPPORT. The datapath functions lane by lane, and what they depend on. -/

namespace Sys2Proof.Machine

open Sys2Proof

theorem pad7_getElem (buf : Chunk) (n : BitVec 3) (j : Nat) (hj : j < 7) :
    (pad7 buf n)[j] = if j < n.toNat then buf[j] else 0x00 := by
  simp [pad7]

/-- A full chunk needs no padding. -/
@[simp] theorem pad7_full (buf : Chunk) : pad7 buf 7 = buf := by
  ext j hj : 1
  simp [pad7_getElem, hj]

/-- The padder reads no entry at or beyond `n` (R70). -/
theorem pad7_congr {a b : Chunk} {n : BitVec 3} (h : a.toList.take n.toNat = b.toList.take n.toNat) :
    pad7 a n = pad7 b n := by
  ext j hj : 1
  simp only [pad7_getElem]
  split
  · next hn =>
    have hj' := congrArg (fun l => l[j]?) h
    simp only [List.getElem?_take_of_lt hn] at hj'
    simpa [hj] using hj'
  · rfl

/-- A block depends on the real bytes of its chunk alone. -/
theorem formBlock_congr (o : ParityOrder) (f : Bool) {a b : Chunk} {n : BitVec 3}
    (h : a.toList.take n.toNat = b.toList.take n.toNat) : formBlock o a n f = formBlock o b n f := by
  simp only [formBlock, pad7_congr h]

theorem shiftLanes_getElem (ch : Chunk) (s : Bool) (j : Nat) (hj : j < 7) :
    (shiftLanes ch s)[j] = if s then ch[j] <<< 1 else ch[j] := by
  simp [shiftLanes]

theorem unshiftLanes_getElem (q : Chunk) (s : Bool) (j : Nat) (hj : j < 7) :
    (unshiftLanes q s)[j] = if s then q[j] >>> 1 else q[j] := by
  simp [unshiftLanes]

@[simp] theorem unshiftLanes_false (q : Chunk) : unshiftLanes q false = q := by
  ext j hj : 1
  simp [unshiftLanes_getElem]

theorem unshiftLanes_true_toList (q : Chunk) :
    (unshiftLanes q true).toList = q.toList.map fun (b : Byte) => b >>> 1 := by
  apply List.ext_getElem <;> simp [unshiftLanes]

/-- The shift flag says that every real byte is at most 0x7F (R71). -/
theorem shiftable_iff (ch : Chunk) (n : BitVec 3) :
    shiftable ch n = true ↔ ∀ (j : Nat) (hj : j < 7), j < n.toNat → ch[j] ≤ 0x7F#8 := by
  have hn := n.isLt
  simp only [shiftable, List.all_eq_true, decide_eq_true_eq, List.mem_take_iff_getElem]
  constructor
  · intro h j hj hjn
    exact h _ ⟨j, by simp; omega, by simp⟩
  · rintro h _ ⟨j, hj, rfl⟩
    simp only [Vector.length_toList] at hj
    simpa using h j (by omega) (by omega)

/-- The padding lanes never spoil the shift (R71). -/
theorem shiftable_pad7 (buf : Chunk) (n : BitVec 3) :
    shiftable (pad7 buf n) n = true ↔ ∀ (j : Nat) (hj : j < 7), (pad7 buf n)[j] ≤ 0x7F#8 := by
  rw [shiftable_iff]
  refine ⟨fun h j hj => ?_, fun h j hj _ => h j hj⟩
  by_cases hn : j < n.toNat
  · exact h j hj hn
  · simp [pad7_getElem, hn]

/-- The header of a formed block (R76). -/
theorem formBlock_header (o : ParityOrder) (buf : Chunk) (n : BitVec 3) (f : Bool) :
    (formBlock o buf n f)[0] =
      if f then headerFinal o (pad7 buf n) (shiftable (pad7 buf n) n) n
      else headerBase o (pad7 buf n) (shiftable (pad7 buf n) n) := rfl

/-- The stored bytes of a formed block (R76). -/
@[simp] theorem formBlock_payload (o : ParityOrder) (buf : Chunk) (n : BitVec 3) (f : Bool) :
    blockPayload (formBlock o buf n f) = shiftLanes (pad7 buf n) (shiftable (pad7 buf n) n) := by
  simp [formBlock]

/-- What a non-final block carries (R77). -/
theorem splitBlock_data (blk : Block) (h : hdrE blk[0] = false) :
    splitBlock blk = (false, (unshiftLanes (blockPayload blk) (hdrS blk[0])).toList) := by
  simp [splitBlock, h]

/-- What a final block carries (R77). -/
theorem splitBlock_final (blk : Block) (h : hdrE blk[0] = true) :
    splitBlock blk =
      (true, (unshiftLanes (blockPayload blk) (hdrS blk[0])).toList.take (hdrLen blk[0]).toNat) := by
  simp [splitBlock, h]

/-- No block carries more than 7 bytes. -/
theorem splitBlock_length_le (blk : Block) : (splitBlock blk).2.length ≤ 7 := by
  unfold splitBlock
  dsimp only
  split <;> simp

end Sys2Proof.Machine
end

