-- ==== Sys2Proof/Laws/State.lean ====
section
/-! SUPPORT. One lemma per field per update of the state (Machine/Ops.lean), each true by rfl. -/

namespace Sys2Proof.Machine

open Sys2Proof

section

variable (l : List Byte) (s : State)

@[simp] theorem State.emitEnc_encBuf : (s.emitEnc l).encBuf = s.encBuf := rfl
@[simp] theorem State.emitEnc_encCnt : (s.emitEnc l).encCnt = s.encCnt := rfl
@[simp] theorem State.emitEnc_decBuf : (s.emitEnc l).decBuf = s.decBuf := rfl
@[simp] theorem State.emitEnc_decCnt : (s.emitEnc l).decCnt = s.decCnt := rfl
@[simp] theorem State.emitEnc_decDone : (s.emitEnc l).decDone = s.decDone := rfl
@[simp] theorem State.emitEnc_decSeen : (s.emitEnc l).decSeen = s.decSeen := rfl
@[simp] theorem State.emitEnc_decResult : (s.emitEnc l).decResult = s.decResult := rfl
@[simp] theorem State.emitEnc_cmdErr : (s.emitEnc l).cmdErr = s.cmdErr := rfl
@[simp] theorem State.emitEnc_encOut : (s.emitEnc l).encOut = s.encOut ++ l := rfl
@[simp] theorem State.emitEnc_decOut : (s.emitEnc l).decOut = s.decOut := rfl
@[simp] theorem State.emitEnc_port : (s.emitEnc l).port = s.port := rfl
@[simp] theorem State.emitEnc_freeIx : (s.emitEnc l).freeIx = s.freeIx := rfl

end

section

variable (l : List Byte) (s : State)

@[simp] theorem State.emitDec_encBuf : (s.emitDec l).encBuf = s.encBuf := rfl
@[simp] theorem State.emitDec_encCnt : (s.emitDec l).encCnt = s.encCnt := rfl
@[simp] theorem State.emitDec_decBuf : (s.emitDec l).decBuf = s.decBuf := rfl
@[simp] theorem State.emitDec_decCnt : (s.emitDec l).decCnt = s.decCnt := rfl
@[simp] theorem State.emitDec_decDone : (s.emitDec l).decDone = s.decDone := rfl
@[simp] theorem State.emitDec_decSeen : (s.emitDec l).decSeen = s.decSeen := rfl
@[simp] theorem State.emitDec_decResult : (s.emitDec l).decResult = s.decResult := rfl
@[simp] theorem State.emitDec_cmdErr : (s.emitDec l).cmdErr = s.cmdErr := rfl
@[simp] theorem State.emitDec_encOut : (s.emitDec l).encOut = s.encOut := rfl
@[simp] theorem State.emitDec_decOut : (s.emitDec l).decOut = s.decOut ++ l := rfl
@[simp] theorem State.emitDec_port : (s.emitDec l).port = s.port := rfl
@[simp] theorem State.emitDec_freeIx : (s.emitDec l).freeIx = s.freeIx := rfl

end

section

variable (n : BitVec 3) (s : State)

@[simp] theorem State.raise_framingError_encBuf : (s.raise (.framingError n)).encBuf = s.encBuf := rfl
@[simp] theorem State.raise_framingError_encCnt : (s.raise (.framingError n)).encCnt = s.encCnt := rfl
@[simp] theorem State.raise_framingError_decBuf : (s.raise (.framingError n)).decBuf = s.decBuf := rfl
@[simp] theorem State.raise_framingError_decCnt : (s.raise (.framingError n)).decCnt = s.decCnt := rfl
@[simp] theorem State.raise_framingError_decDone : (s.raise (.framingError n)).decDone = s.decDone := rfl
@[simp] theorem State.raise_framingError_decSeen : (s.raise (.framingError n)).decSeen = s.decSeen := rfl
@[simp] theorem State.raise_framingError_decResult : (s.raise (.framingError n)).decResult = .framingError := rfl
@[simp] theorem State.raise_framingError_cmdErr : (s.raise (.framingError n)).cmdErr = s.cmdErr := rfl
@[simp] theorem State.raise_framingError_encOut : (s.raise (.framingError n)).encOut = s.encOut := rfl
@[simp] theorem State.raise_framingError_decOut : (s.raise (.framingError n)).decOut = s.decOut := rfl
@[simp] theorem State.raise_framingError_port : (s.raise (.framingError n)).port = s.port := rfl
@[simp] theorem State.raise_framingError_freeIx : (s.raise (.framingError n)).freeIx = s.freeIx := rfl

end

section

variable (w : CmdWord) (s : State)

@[simp] theorem State.raise_illegalCommand_encBuf : (s.raise (.illegalCommand w)).encBuf = s.encBuf := rfl
@[simp] theorem State.raise_illegalCommand_encCnt : (s.raise (.illegalCommand w)).encCnt = s.encCnt := rfl
@[simp] theorem State.raise_illegalCommand_decBuf : (s.raise (.illegalCommand w)).decBuf = s.decBuf := rfl
@[simp] theorem State.raise_illegalCommand_decCnt : (s.raise (.illegalCommand w)).decCnt = s.decCnt := rfl
@[simp] theorem State.raise_illegalCommand_decDone : (s.raise (.illegalCommand w)).decDone = s.decDone := rfl
@[simp] theorem State.raise_illegalCommand_decSeen : (s.raise (.illegalCommand w)).decSeen = s.decSeen := rfl
@[simp] theorem State.raise_illegalCommand_decResult : (s.raise (.illegalCommand w)).decResult = s.decResult := rfl
@[simp] theorem State.raise_illegalCommand_cmdErr : (s.raise (.illegalCommand w)).cmdErr = true := rfl
@[simp] theorem State.raise_illegalCommand_encOut : (s.raise (.illegalCommand w)).encOut = s.encOut := rfl
@[simp] theorem State.raise_illegalCommand_decOut : (s.raise (.illegalCommand w)).decOut = s.decOut := rfl
@[simp] theorem State.raise_illegalCommand_port : (s.raise (.illegalCommand w)).port = s.port := rfl
@[simp] theorem State.raise_illegalCommand_freeIx : (s.raise (.illegalCommand w)).freeIx = s.freeIx := rfl

end

section

variable (b : Byte) (s : State)

@[simp] theorem State.putEnc_encBuf : (s.putEnc b).encBuf = s.encBuf.setIfInBounds s.encCnt.toNat b := rfl
@[simp] theorem State.putEnc_encCnt : (s.putEnc b).encCnt = s.encCnt + 1 := rfl
@[simp] theorem State.putEnc_decBuf : (s.putEnc b).decBuf = s.decBuf := rfl
@[simp] theorem State.putEnc_decCnt : (s.putEnc b).decCnt = s.decCnt := rfl
@[simp] theorem State.putEnc_decDone : (s.putEnc b).decDone = s.decDone := rfl
@[simp] theorem State.putEnc_decSeen : (s.putEnc b).decSeen = s.decSeen := rfl
@[simp] theorem State.putEnc_decResult : (s.putEnc b).decResult = s.decResult := rfl
@[simp] theorem State.putEnc_cmdErr : (s.putEnc b).cmdErr = s.cmdErr := rfl
@[simp] theorem State.putEnc_encOut : (s.putEnc b).encOut = s.encOut := rfl
@[simp] theorem State.putEnc_decOut : (s.putEnc b).decOut = s.decOut := rfl
@[simp] theorem State.putEnc_port : (s.putEnc b).port = s.port := rfl
@[simp] theorem State.putEnc_freeIx : (s.putEnc b).freeIx = s.freeIx := rfl

end

section

variable (b : Byte) (s : State)

@[simp] theorem State.putDec_encBuf : (s.putDec b).encBuf = s.encBuf := rfl
@[simp] theorem State.putDec_encCnt : (s.putDec b).encCnt = s.encCnt := rfl
@[simp] theorem State.putDec_decBuf : (s.putDec b).decBuf = s.decBuf.set s.decCnt.toNat b s.decCnt.isLt := rfl
@[simp] theorem State.putDec_decCnt : (s.putDec b).decCnt = s.decCnt := rfl
@[simp] theorem State.putDec_decDone : (s.putDec b).decDone = s.decDone := rfl
@[simp] theorem State.putDec_decSeen : (s.putDec b).decSeen = true := rfl
@[simp] theorem State.putDec_decResult : (s.putDec b).decResult = s.decResult := rfl
@[simp] theorem State.putDec_cmdErr : (s.putDec b).cmdErr = s.cmdErr := rfl
@[simp] theorem State.putDec_encOut : (s.putDec b).encOut = s.encOut := rfl
@[simp] theorem State.putDec_decOut : (s.putDec b).decOut = s.decOut := rfl
@[simp] theorem State.putDec_port : (s.putDec b).port = s.port := rfl
@[simp] theorem State.putDec_freeIx : (s.putDec b).freeIx = s.freeIx := rfl

end

section

variable (s : State)

@[simp] theorem State.dropEnc_encBuf :
    (s.dropEnc).encBuf = Vector.ofFn fun j => Config.freeByte (s.freeIx + j.val) := rfl
@[simp] theorem State.dropEnc_encCnt : (s.dropEnc).encCnt = 0 := rfl
@[simp] theorem State.dropEnc_decBuf : (s.dropEnc).decBuf = s.decBuf := rfl
@[simp] theorem State.dropEnc_decCnt : (s.dropEnc).decCnt = s.decCnt := rfl
@[simp] theorem State.dropEnc_decDone : (s.dropEnc).decDone = s.decDone := rfl
@[simp] theorem State.dropEnc_decSeen : (s.dropEnc).decSeen = s.decSeen := rfl
@[simp] theorem State.dropEnc_decResult : (s.dropEnc).decResult = s.decResult := rfl
@[simp] theorem State.dropEnc_cmdErr : (s.dropEnc).cmdErr = s.cmdErr := rfl
@[simp] theorem State.dropEnc_encOut : (s.dropEnc).encOut = s.encOut := rfl
@[simp] theorem State.dropEnc_decOut : (s.dropEnc).decOut = s.decOut := rfl
@[simp] theorem State.dropEnc_port : (s.dropEnc).port = s.port := rfl
@[simp] theorem State.dropEnc_freeIx : (s.dropEnc).freeIx = s.freeIx + 7 := rfl

end

section

variable (s : State)

@[simp] theorem State.dropDec_encBuf : (s.dropDec).encBuf = s.encBuf := rfl
@[simp] theorem State.dropDec_encCnt : (s.dropDec).encCnt = s.encCnt := rfl
@[simp] theorem State.dropDec_decBuf :
    (s.dropDec).decBuf = Vector.ofFn fun j => Config.freeByte (s.freeIx + j.val) := rfl
@[simp] theorem State.dropDec_decCnt : (s.dropDec).decCnt = 0 := rfl
@[simp] theorem State.dropDec_decDone : (s.dropDec).decDone = s.decDone := rfl
@[simp] theorem State.dropDec_decSeen : (s.dropDec).decSeen = s.decSeen := rfl
@[simp] theorem State.dropDec_decResult : (s.dropDec).decResult = s.decResult := rfl
@[simp] theorem State.dropDec_cmdErr : (s.dropDec).cmdErr = s.cmdErr := rfl
@[simp] theorem State.dropDec_encOut : (s.dropDec).encOut = s.encOut := rfl
@[simp] theorem State.dropDec_decOut : (s.dropDec).decOut = s.decOut := rfl
@[simp] theorem State.dropDec_port : (s.dropDec).port = s.port := rfl
@[simp] theorem State.dropDec_freeIx : (s.dropDec).freeIx = s.freeIx + 8 := rfl

end

end Sys2Proof.Machine
end

