-- ==== Sys2Proof/Laws/Ops.lean ====
section
/-! SUPPORT. What the buffer operations do to the bytes that have a defined value. -/

namespace Sys2Proof.Machine

open Sys2Proof

theorem State.encBytes_length (s : State) : s.encBytes.length = s.encCnt.toNat := by
  have := s.encCnt.isLt
  simp [State.encBytes]
  omega

theorem State.decBytes_length (s : State) : s.decBytes.length = s.decCnt.toNat := by
  have := s.decCnt.isLt
  simp [State.decBytes]
  omega

@[simp] theorem State.encBytes_dropEnc (s : State) : s.dropEnc.encBytes = [] := rfl

@[simp] theorem State.decBytes_dropDec (s : State) : s.dropDec.decBytes = [] := rfl

theorem toNat_succ_of_ne_seven {n : BitVec 3} (h : n ≠ 7) : (n + 1).toNat = n.toNat + 1 := by
  revert n; decide

/-- Writing entry `n` and taking one more leaves the first `n` entries and adds the byte written. -/
theorem take_succ_set {α : Type} (l : List α) (n : Nat) (a : α) (h : n < l.length) :
    (l.set n a).take (n + 1) = l.take n ++ [a] := by
  rw [List.take_add_one, List.take_set_of_le (by omega)]
  simp [h]

/-- `E.DATA`'s write adds the byte to the open chunk. -/
theorem State.encBytes_putEnc (b : Byte) (s : State) (h : s.encCnt ≠ 7) :
    (s.putEnc b).encBytes = s.encBytes ++ [b] := by
  have hlt : s.encCnt.toNat < 7 := by
    have := s.encCnt.isLt
    have : s.encCnt.toNat ≠ 7 := fun e => h (BitVec.eq_of_toNat_eq e)
    omega
  simp only [State.encBytes, State.putEnc_encBuf, State.putEnc_encCnt, toNat_succ_of_ne_seven h,
    Vector.toList_setIfInBounds]
  exact take_succ_set _ _ _ (by simpa using hlt)

/-- `D.DATA`'s write keeps the bytes received before it. -/
theorem State.decBytes_putDec (b : Byte) (s : State) : (s.putDec b).decBytes = s.decBytes := by
  simp [State.decBytes, Vector.toList_set, List.take_set_of_le]

end Sys2Proof.Machine
end

