-- ==== Sys2Proof/Laws/PerInstr.lean ====
section
/-! SUPPORT. What is said of every instruction, one lemma a constructor: the encoding of a well-formed instruction belongs
to the row of spec/opcode_table.json that carries its mnemonic (30_encoding.md R66). -/

namespace Sys2Proof.Laws

open Sys2Proof

/-- The encoding of `i` belongs to the row named by its mnemonic. -/
def RowMatch.Statement (i : Instr) : Prop :=
  i.WellFormed → match encode i with
    | .command w => ∃ r ∈ commandRows, r.mnemonic = i.mnemonic ∧ r.accepts w = true
    | .block blk => ∃ r ∈ headerRows, r.mnemonic = i.mnemonic ∧ r.accepts blk[0] = true

theorem RowMatch.nop : RowMatch.Statement .nop := fun _ =>
  ⟨⟨"NOP", 0xF00, 0x000⟩, by decide, rfl, by decide⟩

theorem RowMatch.eReset : RowMatch.Statement .eReset := fun _ =>
  ⟨⟨"E.RESET", 0xF00, 0x100⟩, by decide, rfl, by decide⟩

theorem RowMatch.eData (b : Byte) : RowMatch.Statement (.eData b) := fun _ =>
  ⟨⟨"E.DATA", 0xF00, 0x200⟩, by decide, rfl, by simp only [OpcodeRow.accepts, cmdWord_and_F00]; decide⟩

theorem RowMatch.eEnd : RowMatch.Statement .eEnd := fun _ =>
  ⟨⟨"E.END", 0xF00, 0x300⟩, by decide, rfl, by decide⟩

theorem RowMatch.gReset : RowMatch.Statement .gReset := fun _ =>
  ⟨⟨"G.RESET", 0xF00, 0x400⟩, by decide, rfl, by decide⟩

theorem RowMatch.dReset : RowMatch.Statement .dReset := fun _ =>
  ⟨⟨"D.RESET", 0xF00, 0x500⟩, by decide, rfl, by decide⟩

theorem RowMatch.dData (b : Byte) : RowMatch.Statement (.dData b) := fun _ =>
  ⟨⟨"D.DATA", 0xF00, 0x600⟩, by decide, rfl, by simp only [OpcodeRow.accepts, cmdWord_and_F00]; decide⟩

theorem RowMatch.dEnd : RowMatch.Statement .dEnd := fun _ =>
  ⟨⟨"D.END", 0xF00, 0x700⟩, by decide, rfl, by decide⟩

theorem RowMatch.reserved (op : BitVec 4) (data : Byte) : RowMatch.Statement (.reserved op data) := fun h =>
  ⟨⟨"RESERVED", 0x800, 0x800⟩, by decide, rfl, by
    simp only [OpcodeRow.accepts, cmdWord_and_800]
    have h8 : 8 ≤ op.toNat := of_decide_eq_true h
    clear h
    revert op; decide⟩

theorem RowMatch.blkData (pv : BitVec 6) (q : Chunk) : RowMatch.Statement (.blkData pv q) := fun h =>
  ⟨⟨"BLK.DATA", 0x03, 0x00⟩, by decide, rfl, by
    clear h
    show OpcodeRow.accepts _ (hdrData pv false) = true
    revert pv; decide⟩

theorem RowMatch.blkDataS (pv : BitVec 6) (q : Chunk) : RowMatch.Statement (.blkDataS pv q) := fun h =>
  ⟨⟨"BLK.DATA.S", 0x03, 0x01⟩, by decide, rfl, by
    clear h
    show OpcodeRow.accepts _ (hdrData pv true) = true
    revert pv; decide⟩

theorem RowMatch.blkFinal (pvHi len : BitVec 3) (q : Chunk) : RowMatch.Statement (.blkFinal pvHi len q) := fun h =>
  ⟨⟨"BLK.FINAL", 0x03, 0x02⟩, by decide, rfl, by
    clear h
    show OpcodeRow.accepts _ (hdrFinal pvHi len false) = true
    revert pvHi len; decide⟩

theorem RowMatch.blkFinalS (pvHi len : BitVec 3) (q : Chunk) : RowMatch.Statement (.blkFinalS pvHi len q) := fun h =>
  ⟨⟨"BLK.FINAL.S", 0x03, 0x03⟩, by decide, rfl, by
    clear h
    show OpcodeRow.accepts _ (hdrFinal pvHi len true) = true
    revert pvHi len; decide⟩

end Sys2Proof.Laws
end

