-- ==== Sys2Proof/Laws/Run.lean ====
section
/-! SUPPORT. What `exec` answers, said once: every instruction goes on to `after i s`. Steps and runs follow from it. -/

namespace Sys2Proof.Machine

open Sys2Proof

/-- The state every instruction goes on to. -/
def after : Instr → State → State
  | .nop, s => s
  | .eReset, s => if s.encCnt = 0 then s else s.dropEnc
  | .eData b, s => eDataStep Config.parityOrder b s
  | .eEnd, s => eEndStep Config.parityOrder s
  | .gReset, s =>
    { s.dropEnc.dropDec with decDone := false, decSeen := false, decResult := .none, cmdErr := false }
  | .dReset, s => { s.dropDec with decDone := false, decSeen := false, decResult := .none }
  | .dData b, s => dDataStep b s
  | .dEnd, s => { (recordEnd s).dropDec with decDone := false, decSeen := false }
  | .reserved op data, s => s.raise (.illegalCommand (cmdWord op data))
  | .blkData _ q, s => blkDataStep q s
  | .blkDataS _ q, s => blkDataSStep q s
  | .blkFinal _ len q, s => blkFinalStep len q s
  | .blkFinalS _ len q, s => blkFinalSStep len q s

/-- Every instruction completes (R109, R112). -/
theorem exec_eq_after (i : Instr) (s : State) : exec i s = .next (after i s) := by
  cases i <;> rfl

theorem exec_next_iff {i : Instr} {s t : State} : exec i s = .next t ↔ t = after i s := by
  simp [exec_eq_after, eq_comm]

/-- Processing a block does not look at the commands to come. -/
theorem processBlock_port (blk : Block) (p : List CmdWord) (s : State) :
    processBlock blk { s with port := p } = { processBlock blk s with port := p } := by
  unfold processBlock
  split <;> rfl

theorem dropDec_port_put (p : List CmdWord) (s : State) :
    State.dropDec { s with port := p } = { s.dropDec with port := p } := rfl

theorem putDec_port_put (b : Byte) (p : List CmdWord) (s : State) :
    State.putDec b { s with port := p } = { s.putDec b with port := p } := rfl

/-- No instruction looks at the commands to come, or changes them. -/
theorem after_port_put (i : Instr) (p : List CmdWord) (s : State) :
    after i { s with port := p } = { after i s with port := p } := by
  cases i <;> try rfl
  · simp only [after]; split <;> rfl
  · simp only [after, eDataStep]; split <;> rfl
  · simp only [after, eEndStep]; split <;> rfl
  · simp only [after, dDataStep, putDec_port_put, processBlock_port, dropDec_port_put]
    split
    · rfl
    · split <;> rfl
  · simp only [after, recordEnd]; split
    · rfl
    · split <;> rfl

@[simp] theorem after_port (i : Instr) (s : State) : (after i s).port = s.port := by
  have h := congrArg State.port (after_port_put i s.port s)
  exact h

theorem step_idle {s : State} (h : s.port = []) : step s = .next s := by
  simp [step, h]

/-- One step is the oldest presented command's effect. -/
theorem step_cons {s : State} {w : CmdWord} {rest : List CmdWord} (h : s.port = w :: rest) :
    step s = .next { after (decodeCommand w) s with port := rest } := by
  simp [step, h, exec_eq_after, after_port_put]

/-- One step with a command presented at the head of the port. -/
theorem step_presented (w : CmdWord) (rest : List CmdWord) (s : State) :
    step { s with port := w :: rest } = .next { after (decodeCommand w) s with port := rest } := by
  rw [step_cons rfl, after_port_put]

/-- The effects of commands one after another. -/
def afterWords (ws : List CmdWord) (s : State) : State := ws.foldl (fun s w => after (decodeCommand w) s) s

@[simp] theorem afterWords_nil (s : State) : afterWords [] s = s := rfl

@[simp] theorem afterWords_cons (w : CmdWord) (ws : List CmdWord) (s : State) :
    afterWords (w :: ws) s = afterWords ws (after (decodeCommand w) s) := rfl

theorem afterWords_append (us ws : List CmdWord) (s : State) :
    afterWords (us ++ ws) s = afterWords ws (afterWords us s) := by
  simp [afterWords]

theorem afterWords_port_put (ws : List CmdWord) (p : List CmdWord) (s : State) :
    afterWords ws { s with port := p } = { afterWords ws s with port := p } := by
  induction ws generalizing s with
  | nil => rfl
  | cons w ws ih => simp [after_port_put, ih]

@[simp] theorem afterWords_port (ws : List CmdWord) (s : State) : (afterWords ws s).port = s.port := by
  induction ws generalizing s with
  | nil => rfl
  | cons w ws ih => simp [ih]

/-- A run whose first step goes on is the run from there. -/
theorem run_of_step_next (k : Nat) {s t : State} (h : step s = .next t) :
    Host.Core.run Sys2Proof.core (k + 1) s = Host.Core.run Sys2Proof.core k t := by
  have h' : Sys2Proof.core.step s = .next t := h
  have hrun := Host.Core.run.eq_2 Sys2Proof.core s k
  rw [h'] at hrun
  exact hrun

/-- The host's run of `ws.length` steps, with `ws` presented first, is the effects of `ws`. -/
theorem run_port_append (ws rest : List CmdWord) (s : State) :
    Host.Core.run Sys2Proof.core ws.length ({ s with port := ws ++ rest } : State) =
      .next { afterWords ws s with port := rest } := by
  induction ws generalizing s with
  | nil => rfl
  | cons w ws ih =>
    exact (run_of_step_next ws.length (step_presented w (ws ++ rest) s)).trans (ih _)

/-- Every run of presented commands completes, with their effects one after another. -/
theorem runWords_eq (ws : List CmdWord) (s : State) : runWords ws s = .next (afterWords ws s) := by
  have h := run_port_append ws s.port s
  rw [← afterWords_port_put] at h
  exact h

end Sys2Proof.Machine
end

