-- ==== Sys2Proof/Laws/Views.lean ====
section
/-! SUPPORT. What each operation leaves of the other unit's view, and what it does to its own. -/

namespace Sys2Proof.Machine

open Sys2Proof

section

variable (s : State)

@[simp] theorem State.decView_emitEnc (l : List Byte) : (s.emitEnc l).decView = s.decView := rfl
@[simp] theorem State.decView_putEnc (b : Byte) : (s.putEnc b).decView = s.decView := rfl
@[simp] theorem State.decView_dropEnc : s.dropEnc.decView = s.decView := rfl
@[simp] theorem State.encView_emitDec (l : List Byte) : (s.emitDec l).encView = s.encView := rfl
@[simp] theorem State.encView_putDec (b : Byte) : (s.putDec b).encView = s.encView := rfl
@[simp] theorem State.encView_dropDec : s.dropDec.encView = s.encView := rfl
@[simp] theorem State.encView_dropEnc : s.dropEnc.encView = ⟨0, [], s.encOut⟩ := rfl
@[simp] theorem State.decView_dropDec :
    s.dropDec.decView = ⟨0, [], s.decDone, s.decSeen, s.decResult, s.decOut⟩ := rfl

end

theorem State.encView_putEnc (b : Byte) (s : State) (h : s.encCnt ≠ 7) :
    (s.putEnc b).encView = ⟨s.encCnt + 1, s.encBytes ++ [b], s.encOut⟩ := by
  simp [State.encView, State.encBytes_putEnc b s h]

/-! ### Emitting the open chunk -/

section

variable (o : ParityOrder) (f : Bool) (s : State)

@[simp] theorem State.decView_emitChunk : (s.emitChunk o f).decView = s.decView := rfl
@[simp] theorem State.emitChunk_cmdErr : (s.emitChunk o f).cmdErr = s.cmdErr := rfl
@[simp] theorem State.emitChunk_port : (s.emitChunk o f).port = s.port := rfl
@[simp] theorem State.emitChunk_encCnt : (s.emitChunk o f).encCnt = 0 := rfl
@[simp] theorem State.emitChunk_encBytes : (s.emitChunk o f).encBytes = [] := rfl
@[simp] theorem State.emitChunk_encOut :
    (s.emitChunk o f).encOut = s.encOut ++ (formBlock o s.encBuf s.encCnt f).toList := rfl
@[simp] theorem State.encView_emitChunk :
    (s.emitChunk o f).encView = ⟨0, [], s.encOut ++ (formBlock o s.encBuf s.encCnt f).toList⟩ := rfl

end

/-- What `E.DATA` does to the encoder (R83): a full chunk leaves as a non-final block before the byte is taken. -/
theorem eDataStep_encView (o : ParityOrder) (b : Byte) (s : State) :
    (eDataStep o b s).encView =
      if s.encCnt = 7 then ⟨1, [b], s.encOut ++ (formBlock o s.encBuf s.encCnt false).toList⟩
      else ⟨s.encCnt + 1, s.encBytes ++ [b], s.encOut⟩ := by
  unfold eDataStep
  split
  · rw [State.encView_putEnc _ _ (by simp)]; simp
  · next h => rw [State.encView_putEnc _ _ h]

/-- What `E.END` does to the encoder (R84). -/
theorem eEndStep_encView (o : ParityOrder) (s : State) :
    (eEndStep o s).encView =
      ⟨0, [], if s.encCnt = 0 then s.encOut else s.encOut ++ (formBlock o s.encBuf s.encCnt true).toList⟩ := by
  unfold eEndStep
  split
  · next h => simp [State.encView, State.encBytes, h]
  · simp

@[simp] theorem eDataStep_decView (o : ParityOrder) (b : Byte) (s : State) :
    (eDataStep o b s).decView = s.decView := by
  unfold eDataStep; split <;> simp

@[simp] theorem eDataStep_cmdErr (o : ParityOrder) (b : Byte) (s : State) : (eDataStep o b s).cmdErr = s.cmdErr := by
  unfold eDataStep; split <;> simp

@[simp] theorem eDataStep_port (o : ParityOrder) (b : Byte) (s : State) : (eDataStep o b s).port = s.port := by
  unfold eDataStep; split <;> simp

@[simp] theorem eEndStep_decView (o : ParityOrder) (s : State) : (eEndStep o s).decView = s.decView := by
  unfold eEndStep; split <;> simp

@[simp] theorem eEndStep_cmdErr (o : ParityOrder) (s : State) : (eEndStep o s).cmdErr = s.cmdErr := by
  unfold eEndStep; split <;> simp

@[simp] theorem eEndStep_port (o : ParityOrder) (s : State) : (eEndStep o s).port = s.port := by
  unfold eEndStep; split <;> simp

/-! ### Processing a block -/

@[simp] theorem processBlock_encView (blk : Block) (s : State) : (processBlock blk s).encView = s.encView := by
  unfold processBlock; split <;> rfl

@[simp] theorem processBlock_cmdErr (blk : Block) (s : State) : (processBlock blk s).cmdErr = s.cmdErr := by
  unfold processBlock; split <;> rfl

/-! ### `D.DATA` and `D.END` -/

/-- `D.DATA`'s write joins the byte to a block that is not complete with it. -/
theorem State.decBytes_joined (b : Byte) (s : State) (h : s.decCnt ≠ 7) :
    ({ s.putDec b with decCnt := s.decCnt + 1 } : State).decBytes = s.decBytes ++ [b] := by
  simp only [State.decBytes, State.putDec_decBuf, Vector.toList_set, toNat_succ_of_ne_seven h]
  exact take_succ_set _ _ _ (by simpa using s.decCnt.isLt)

@[simp] theorem dDataStep_encView (b : Byte) (s : State) : (dDataStep b s).encView = s.encView := by
  unfold dDataStep
  split
  · rfl
  · split
    · simp
    · rfl

@[simp] theorem dDataStep_cmdErr (b : Byte) (s : State) : (dDataStep b s).cmdErr = s.cmdErr := by
  unfold dDataStep
  split
  · rfl
  · split
    · simp
    · rfl

@[simp] theorem recordEnd_encView (s : State) : (recordEnd s).encView = s.encView := by
  unfold recordEnd
  split
  · rfl
  · split <;> rfl

@[simp] theorem recordEnd_cmdErr (s : State) : (recordEnd s).cmdErr = s.cmdErr := by
  unfold recordEnd
  split
  · rfl
  · split <;> rfl

end Sys2Proof.Machine
end

