-- ==== Sys2Proof/Tests/Slice0.lean ====
section
/-! SUPPORT. The model's own tests. Expected values are 95_test_vectors.md's, or the rule's own example where a theorem names
one. Then, for every statement with hypotheses, a witness that meets them, at the edges of its clauses. -/

namespace Sys2Proof.Tests

open Sys2Proof Sys2Proof.Machine

/-! ### States to test on -/

/-- An open encoder stream that holds the first `n` bytes of `buf`. -/
def holding (buf : Chunk) (n : BitVec 3) : State := { State.reset with encBuf := buf, encCnt := n }

/-- An open decoder stream that has received the first `n` bytes of `buf`. -/
def received (buf : Block) (n : BitVec 3) : State :=
  { State.reset with decBuf := buf, decCnt := n, decSeen := true }

/-- A decoder stream whose final block was processed. -/
def finished : State := { State.reset with decDone := true, decSeen := true, decOut := [0x61] }

/-- `STATUS = 0x0911`, with a byte on each output stream. -/
def busy : State :=
  { received #v[0xCF, 0, 0, 0, 0, 0, 0, 0] 1 with encCnt := 1, cmdErr := true, encOut := [0x00], decOut := [0x61] }

/-- "abcdefg". -/
def aToG : Chunk := #v[0x61, 0x62, 0x63, 0x64, 0x65, 0x66, 0x67]

/-- `STATUS`, `ENC_OUT` and `DEC_OUT` after the next step, if it gives a state. -/
def seen (s : State) : Option (BitVec 16 × List Byte × List Byte) :=
  match step s with
  | .next t => some (t.status, t.encOut, t.decOut)
  | .fault _ => none
  | .refused _ => none

/-- The same, once the command word `w` has been presented. -/
def sees (s : State) (w : CmdWord) : Option (BitVec 16 × List Byte × List Byte) := seen { s with port := [w] }

/-! ### Well-formedness: its one check refuses -/

theorem smoke_reserved_needs_op3 :
    ¬ (Instr.reserved 0x3 0x00).WellFormed ∧ ¬ (Instr.reserved 0x7 0xFF).WellFormed := by decide

/-! ### Decoding: a word for every constructor, bit by bit from R48, R49, R55 and R61 -/

theorem test_decode_block_commands :
    decodeTableWord 16 0b000000000000 = some .nop ∧ decodeTableWord 16 0b000011111111 = some .nop ∧
    decodeTableWord 16 0b010010101010 = some .gReset ∧
    decodeTableWord 16 0b100000000001 = some (.reserved 0b1000 0b00000001) ∧
    decodeTableWord 16 0b101001010101 = some (.reserved 0b1010 0b01010101) := by decide

theorem test_decode_encoder_commands :
    decodeTableWord 16 0b000111111111 = some .eReset ∧ decodeTableWord 16 0b001001100001 = some (.eData 0b01100001) ∧
    decodeTableWord 16 0b001110101011 = some .eEnd := by decide

theorem test_decode_decoder_commands :
    decodeTableWord 16 0b010100000000 = some .dReset ∧ decodeTableWord 16 0b011011001111 = some (.dData 0b11001111) ∧
    decodeTableWord 16 0b011100000001 = some .dEnd := by decide

theorem test_decode_block_kinds :
    decodeTableWord 8 0b11111100 = some (.blkData 0b111111 #v[0, 0, 0, 0, 0, 0, 0]) ∧
    decodeTableWord 8 0b00101101 = some (.blkDataS 0b001011 #v[0, 0, 0, 0, 0, 0, 0]) ∧
    decodeTableWord 8 0b11100110 = some (.blkFinal 0b111 0b001 #v[0, 0, 0, 0, 0, 0, 0]) ∧
    decodeTableWord 64 0x07060504030201CF = some (.blkFinalS 0b110 0b011 #v[1, 2, 3, 4, 5, 6, 7]) := by decide

theorem test_decode_refuses_by_name :
    decodeTable 16 0x1261 = .error (.tooWide 0x1261) ∧ decodeTable 32 0x261 = .error (.noFormatOfWidth 32) ∧
    decodeTable 8 0x100 = .error (.tooWide 0x100) := by decide

/-! ### Datapath (95_test_vectors.md 2.1 to 2.3) -/

theorem test_parity :
    ([0x00, 0x01, 0x03, 0x61, 0x63, 0x7F, 0x80, 0xAA, 0xFE, 0xFF] : List Byte).map par =
      [false, true, false, true, false, true, true, false, true, false] := by decide

theorem test_parity_value_inverted :
    parityValue .msbFirst aToG = 0x0B ∧ parityValue .lsbFirst aToG = 0x34 ∧
    parityValue .msbFirst #v[0, 0, 0, 0, 0, 0, 1] = 0x3F ∧ parityValue .lsbFirst #v[1, 1, 1, 1, 1, 1, 1] = 0x00 := by
  decide

theorem test_shift_decision :
    shiftable #v[0x41, 0x80, 0, 0, 0, 0, 0] 2 = false ∧ shiftable #v[0x7F, 0, 0, 0, 0, 0, 0] 1 = true ∧
    shiftable #v[0x80, 0, 0, 0, 0, 0, 0] 1 = false := by decide

/-- R75's example, the non-final row of "abcdefg", and the row whose low parity bits `LEN` overwrites. -/
theorem test_headers :
    headerFinal .msbFirst #v[0x61, 0x62, 0x63, 0, 0, 0, 0] true 3 = 0xCF ∧
    headerFinal .lsbFirst #v[0x61, 0x62, 0x63, 0, 0, 0, 0] true 3 = 0x0F ∧
    headerBase .msbFirst aToG true = 0x2D ∧ headerBase .lsbFirst aToG true = 0xD1 ∧
    headerFinal .msbFirst #v[1, 0, 0, 0, 0, 1, 0] true 6 = 0x9B := by decide

/-- Entries at or beyond `n` are not read (R70). -/
theorem test_form_block :
    (formBlock .msbFirst #v[0x41, 0x80, 0xAA, 0xBB, 0xCC, 0xDD, 0xEE] 2 true).toList =
      [0x4A, 0x41, 0x80, 0, 0, 0, 0, 0] := by decide

theorem test_shift_lanes :
    (shiftLanes #v[0x7F, 0, 0, 0, 0, 0, 0] true).toList = [0xFE, 0, 0, 0, 0, 0, 0] ∧
    (unshiftLanes #v[0x03, 0xFF, 0x01, 0, 0, 0, 0x80] true).toList = [0x01, 0x7F, 0, 0, 0, 0, 0x40] := by decide

/-! ### Commands (2.5 to 2.7, and section 3): what one step leaves -/

theorem test_nop : sees busy 0x0FF = some (0x0911, [0x00], [0x61]) := by decide

theorem test_gReset : sees busy 0x400 = some (0x0000, [0x00], [0x61]) := by decide

theorem test_reserved : sees State.reset 0xA55 = some (0x0800, [], []) := by decide

theorem test_reserved_keeps_stream :
    sees { holding aToG 3 with cmdErr := true } 0xFFF = some (0x0803, [], []) := by decide

theorem test_eReset_drops : sees (holding aToG 1) 0x1FF = some (0x0000, [], []) := by decide

theorem test_eData_emits_full_chunk :
    sees (holding aToG 7) 0x268 = some (0x0001, [0x2D, 0xC2, 0xC4, 0xC6, 0xC8, 0xCA, 0xCC, 0xCE], []) := by decide

theorem test_eData_holds_seventh : sees (holding aToG 6) 0x267 = some (0x0007, [], []) := by decide

theorem test_eEnd_final_block :
    sees (holding aToG 3) 0x300 = some (0x0000, [0xCF, 0xC2, 0xC4, 0xC6, 0, 0, 0, 0], []) := by decide

theorem test_eEnd_empty : sees State.reset 0x3AB = some (0x0000, [], []) := by decide

theorem test_dReset : sees { State.reset with decResult := .framingError } 0x500 = some (0x0000, [], []) := by decide

theorem test_dData_eighth_byte :
    sees (received #v[0xCF, 0xC2, 0xC4, 0xC6, 0, 0, 0, 0xAA] 7) 0x600 = some (0x0180, [], [0x61, 0x62, 0x63]) := by
  decide

theorem test_dData_ignored_when_done : sees finished 0x6CF = some (0x0180, [], [0x61]) := by decide

theorem test_dEnd_framing_error :
    sees (received #v[0x0E, 0xFF, 0xFF, 0, 0, 0, 0, 0] 3) 0x700 = some (0x0600, [], []) := by decide

theorem test_dEnd_ok_and_empty :
    sees finished 0x7FF = some (0x0200, [], [0x61]) ∧ sees State.reset 0x700 = some (0x0400, [], []) := by decide

/-! ### Block kinds (2.4), run by the step that completes the block -/

theorem test_blkData :
    seen (State.reset.withFetchWord 64 0x77665544332211FC) =
      some (0x0100, [], [0x11, 0x22, 0x33, 0x44, 0x55, 0x66, 0x77]) := by decide

theorem test_blkDataS :
    seen (State.reset.withFetchWord 64 0x8000000000FF0301) =
      some (0x0100, [], [0x01, 0x7F, 0x00, 0x00, 0x00, 0x00, 0x40]) := by decide

theorem test_blkFinal :
    seen (State.reset.withFetchWord 64 0xDDCCBBAAFFFFFF0E) = some (0x0180, [], [0xFF, 0xFF, 0xFF]) := by decide

theorem test_blkFinal_len_zero :
    seen (State.reset.withFetchWord 64 0x77665544332211E2) = some (0x0180, [], []) := by decide

theorem test_blkFinalS :
    seen (State.reset.withFetchWord 64 0x0F0D0B090705031F) = some (0x0180, [], [1, 2, 3, 4, 5, 6, 7]) := by decide

/-! ### Streams and text -/

/-- 2.5's "abcdefgh", in both parity orders. -/
theorem test_sourceEncode :
    sourceEncode .msbFirst [0x61, 0x62, 0x63, 0x64, 0x65, 0x66, 0x67, 0x68] =
      [0x2D, 0xC2, 0xC4, 0xC6, 0xC8, 0xCA, 0xCC, 0xCE, 0x87, 0xD0, 0, 0, 0, 0, 0, 0] ∧
    sourceEncode .lsbFirst [0x61, 0x62, 0x63, 0x64, 0x65, 0x66, 0x67, 0x68] =
      [0xD1, 0xC2, 0xC4, 0xC6, 0xC8, 0xCA, 0xCC, 0xCE, 0x07, 0xD0, 0, 0, 0, 0, 0, 0] := by decide

/-- 2.6, and C1's one byte of cyclic padding. -/
theorem test_sourceDecode :
    sourceDecode (hostPad 0 [0xCF, 0xC2, 0xC4, 0xC6, 0, 0, 0, 0]) = ([0x61, 0x62, 0x63], .ok) ∧
    hostPad 0 [0xCF, 0xC2, 0xC4, 0xC6, 0, 0, 0, 0] = [0xCF, 0xC2, 0xC4, 0xC6, 0, 0, 0, 0, 0xCF] ∧
    sourceDecode [0xCF, 0xC2, 0xC4] = ([], .framingError) ∧ sourceDecode [] = ([], .okEmpty) := by decide

/-- R63: case, a comment, the three spellings of a number. -/
theorem test_assemble_line :
    assembleLine ['e', '.', 'D', 'a', 't', 'a', ' ', '0', 'x', '6', '1', ' ', ';', ' ', 'h', 'i'] = some [0x261] ∧
    assembleLine ['D', '.', 'S', 'T', 'R', 'E', 'A', 'M', ' ', '0', 'x', 'C', 'F', ',', ' ', '1', '2', ',', '\'', 'a', '\''] =
      some [0x6CF, 0x60C, 0x661, 0x700] ∧
    assembleLine ['E', '.', 'S', 'T', 'R', 'E', 'A', 'M', ' ', '"', 'a', 'b', 'c', '"'] =
      some [0x261, 0x262, 0x263, 0x300] ∧
    assembleLine ['.', 'w', 'o', 'r', 'd', ' ', '0', 'x', 'A', '5', '5'] = some [0xA55] := by decide

/-- R63: an operand where none belongs, a number above 255, and a defined word written raw are refused. -/
theorem test_assemble_refuses :
    assembleLine ['N', 'O', 'P', ' ', '0'] = none ∧ assembleLine ['E', '.', 'D', 'A', 'T', 'A', ' ', '2', '5', '6'] = none ∧
    assembleLine ['.', 'w', 'o', 'r', 'd', ' ', '0', 'x', '7', 'F', 'F'] = none := by decide

/-! ### Witnesses: the hypotheses of each statement can be met, at the edges of its clauses -/

theorem witness_DecodeAfterEncodeIsIdentity :
    (Instr.reserved 0x8 0xFF).WellFormed ∧ (Instr.reserved 0xF 0x00).WellFormed ∧ (Instr.blkFinalS 7 0 aToG).WellFormed := by
  decide

theorem witness_EncodeAfterDecodeKeepsEveryReadBit :
    cmdOp 0x2FF = 0x2 ∧ cmdOp 0x6FF = 0x6 ∧ 8 ≤ (cmdOp 0x800).toNat ∧
    ¬ (cmdOp 0x7FF = 0x2 ∨ cmdOp 0x7FF = 0x6 ∨ 8 ≤ (cmdOp 0x7FF).toNat) := by decide

theorem witness_IgnoredDataChangesNothing :
    (0x0#4 ∈ ([0x0, 0x1, 0x3, 0x4, 0x5, 0x7] : List (BitVec 4)) ∧ State.reset.cmdErr = false) ∧
    (0x7#4 ∈ ([0x0, 0x1, 0x3, 0x4, 0x5, 0x7] : List (BitVec 4)) ∧ (holding aToG 3).cmdErr = false) := by decide

theorem witness_OpcodeBitsSelectUnit :
    (cmdOp 0x8FF).getLsbD 3 = true ∧ (cmdOp 0x400).extractLsb' 0 2 = 0b00#2 ∧
    ((cmdOp 0x5FF).getLsbD 3 = false ∧ (cmdOp 0x5FF).extractLsb' 0 2 ≠ 0b00#2 ∧ (cmdOp 0x5FF).getLsbD 2 = true) ∧
    ((cmdOp 0x300).getLsbD 3 = false ∧ (cmdOp 0x300).extractLsb' 0 2 ≠ 0b00#2 ∧ (cmdOp 0x300).getLsbD 2 = false) := by
  decide

theorem witness_AssemblerInvertsItsText :
    ((Instr.dData 0xFF).WellFormed ∧ encode (.dData 0xFF) = .command 0x6FF) ∧
    ((Instr.reserved 0x8 0x00).WellFormed ∧ encode (.reserved 0x8 0x00) = .command 0x800) := by decide

theorem witness_ParityBitsLandByOrder :
    ((0 < 6 ∧ (parityValue .msbFirst #v[1, 0, 0, 0, 0, 0, 0]).getLsbD 5 = true) ∧
      (5 < 6 ∧ (parityValue .msbFirst #v[0, 0, 0, 0, 0, 1, 0]).getLsbD 0 = true)) ∧
    (parityValue .lsbFirst #v[0, 0, 0, 0, 0, 1, 0]).getLsbD 5 = true := by decide

/-- A shifted and an unshifted chunk, at their last real byte and their first padding byte. -/
theorem witness_FormedBlockLayout :
    (2 < 7 ∧ 2 < (3#3).toNat ∧ ∀ (k : Nat) (hk : k < 7), k < (3#3).toNat → aToG[k] ≤ 0x7F#8) ∧
    (3 < 7 ∧ ¬ 3 < (3#3).toNat) ∧
    (1 < (2#3).toNat ∧
      ¬ ∀ (k : Nat) (hk : k < 7), k < (2#3).toNat → (#v[0x41, 0x80, 0, 0, 0, 0, 0] : Chunk)[k] ≤ 0x7F#8) := by
  refine ⟨⟨by decide, by decide, by decide⟩, by decide, by decide, fun h => ?_⟩
  exact absurd (h 1 (by decide) (by decide)) (by decide)

theorem witness_ShiftKeepsParity : (0x7F#8 ≤ 0x7F#8) ∧ ¬ (0x80#8 ≤ 0x7F#8) := by decide

theorem witness_ShiftFlagTellsStoredBytes :
    (shiftable (pad7 #v[0x7F, 0, 0, 0, 0, 0, 0] 1) 1 = true ∧
      (#v[0xFE, 0, 0, 0, 0, 0, 0] : Chunk) = shiftLanes (pad7 #v[0x7F, 0, 0, 0, 0, 0, 0] 1) true) ∧
    (shiftable (pad7 #v[0x80, 0, 0, 0, 0, 0, 0] 1) 1 = false ∧
      (#v[0x80, 0, 0, 0, 0, 0, 0] : Chunk) = shiftLanes (pad7 #v[0x80, 0, 0, 0, 0, 0, 0] 1) false) := by decide

theorem witness_BlockRoundTrip : (1#3 ≠ 0) ∧ (7#3 ≠ 0) := by decide

theorem witness_ProcessBlockIsSplitBlock :
    (splitBlock #v[0x02, 1, 2, 3, 4, 5, 6, 7]).1 = true ∧ (splitBlock #v[0xFD, 1, 2, 3, 4, 5, 6, 7]).1 = false := by decide

theorem witness_InformationalBitsIgnored :
    (hdrS 0x00 = hdrS 0xFC ∧ hdrE 0x00 = hdrE 0xFC ∧ (hdrE 0x00 = true → hdrLen 0x00 = hdrLen 0xFC)) ∧
    (hdrS 0xCF = hdrS 0x0F ∧ hdrE 0xCF = hdrE 0x0F ∧ (hdrE 0xCF = true → hdrLen 0xCF = hdrLen 0x0F)) := by decide

theorem witness_StepRunsTheDecodedCommand :
    ({ State.reset with port := [0x261, 0x300] } : State).port = 0x261#12 :: [0x300#12] ∧ State.reset.port = [] := by
  decide

theorem witness_EighthByteRunsTheBlockKind :
    (received #v[0xCF, 0xC2, 0xC4, 0xC6, 0, 0, 0, 0] 7).decDone = false ∧
    (received #v[0xCF, 0xC2, 0xC4, 0xC6, 0, 0, 0, 0] 7).decCnt = 7 := by decide

theorem witness_GlobalResetResult : busy.cmdErr = true ∧ Instr.nop ≠ .gReset ∧ Instr.dReset ≠ .gReset := by decide

theorem witness_FetchedEncodingIsWhatRuns :
    tableEncoding 16 0xFFF = .ok (.command 0xFFF) ∧ tableEncoding 8 0xFF = .ok (.block #v[0xFF, 0, 0, 0, 0, 0, 0, 0]) ∧
    tableEncoding 64 0xFF000000000000CF = .ok (.block #v[0xCF, 0, 0, 0, 0, 0, 0, 0xFF]) := by decide

theorem witness_DecResultWriters :
    (Instr.dReset = .dReset ∨ Instr.dReset = .gReset) ∧ (Instr.gReset = .dReset ∨ Instr.gReset = .gReset) ∧
    (Instr.eEnd ≠ .dEnd ∧ Instr.eEnd ≠ .dReset ∧ Instr.eEnd ≠ .gReset) := by decide

theorem witness_ReservedCommandResult :
    (0x800#12 &&& 0x800 = 0x800) ∧ (0xFFF#12 &&& 0x800 = 0x800) ∧ ¬ (0x7FF#12 &&& 0x800 = 0x800) := by decide

theorem witness_EncoderResetResult : (holding aToG 0).encCnt = 0 ∧ (holding aToG 7).encCnt ≠ 0 := by decide

theorem witness_EncoderDataResult : (holding aToG 7).encCnt = 7 ∧ (holding aToG 6).encCnt ≠ 7 := by decide

theorem witness_EncoderEndResult : (holding aToG 0).encCnt = 0 ∧ (holding aToG 1).encCnt ≠ 0 := by decide

theorem witness_EncoderCommandsKeepDecoder :
    Instr.eReset.unit = .encoder ∧ (Instr.eData 0xFF).unit = .encoder ∧ Instr.eEnd.unit = .encoder := by decide

theorem witness_DecoderCommandsKeepEncoder :
    Instr.dReset.unit = .decoder ∧ (Instr.dData 0x00).unit = .decoder ∧ Instr.dEnd.unit = .decoder ∧
    (Instr.blkData 0 aToG).unit = .decoder ∧ (Instr.blkDataS 63 aToG).unit = .decoder ∧
    (Instr.blkFinal 7 0 aToG).unit = .decoder ∧ (Instr.blkFinalS 0 7 aToG).unit = .decoder := by decide

theorem witness_DecoderDataResult :
    finished.decDone = true ∧
    ((received #v[0, 0, 0, 0, 0, 0, 0, 0] 7).decDone = false ∧ (received #v[0, 0, 0, 0, 0, 0, 0, 0] 7).decCnt = 7) ∧
    ((received #v[0, 0, 0, 0, 0, 0, 0, 0] 6).decDone = false ∧ (received #v[0, 0, 0, 0, 0, 0, 0, 0] 6).decCnt ≠ 7) := by
  decide

theorem witness_DecoderEndResult :
    finished.decDone = true ∧ ((received #v[0, 0, 0, 0, 0, 0, 0, 0] 0).decDone = false ∧
      (received #v[0, 0, 0, 0, 0, 0, 0, 0] 0).decSeen = true) ∧
    (State.reset.decDone = false ∧ State.reset.decSeen = false) := by decide

theorem witness_BlkDataResult : (0x00#8 &&& 0x03 = 0x00) ∧ (0xFC#8 &&& 0x03 = 0x00) := by decide

theorem witness_BlkDataSResult : (0x01#8 &&& 0x03 = 0x01) ∧ (0xFD#8 &&& 0x03 = 0x01) := by decide

theorem witness_BlkFinalResult : (0x02#8 &&& 0x03 = 0x02) ∧ (0xFE#8 &&& 0x03 = 0x02) := by decide

theorem witness_BlkFinalSResult : (0x03#8 &&& 0x03 = 0x03) ∧ (0xFF#8 &&& 0x03 = 0x03) := by decide

theorem witness_FramingErrorOnlyAtEnd :
    (received #v[0xCF, 0, 0, 0, 0, 0, 0, 0] 1).decResult ≠ .framingError ∧
    (received #v[0xCF, 0, 0, 0, 0, 0, 0, 0] 1).decDone = false ∧
    (received #v[0xCF, 0, 0, 0, 0, 0, 0, 0] 1).decSeen = true := by decide

theorem witness_DecoderStopsAfterFinalBlock :
    finished.decDone = true ∧ ∀ w ∈ ([0x6CF, 0x261, 0x300, 0x9AB] : List CmdWord),
      decodeCommand w ≠ .dEnd ∧ decodeCommand w ≠ .dReset ∧ decodeCommand w ≠ .gReset := by decide

/-- Two states that differ in stale entries of both buffers, and in the free values to come. -/
theorem witness_StaleBytesNeverShow :
    SameDefined (holding #v[0x61, 0, 0, 0, 0, 0, 0] 1)
      { holding #v[0x61, 0xFF, 0, 0, 0, 0, 0x80] 1 with decBuf := Vector.replicate 8 0xEE, freeIx := 5 } := by
  constructor <;> decide

theorem witness_StepKeepsInvariants :
    (received #v[0xCF, 0xC2, 0xC4, 0xC6, 0, 0, 0, 0] 7).Inv ∧
    ∃ t, step (received #v[0xCF, 0xC2, 0xC4, 0xC6, 0, 0, 0, 0] 7) = .next t :=
  ⟨⟨by decide, by decide, by decide, by decide⟩, _, rfl⟩

theorem witness_StepKeepsEncOutFramed :
    framed ({ holding aToG 7 with port := [0x268], encOut := [0xCF, 0xC2, 0xC4, 0xC6, 0, 0, 0, 0] } : State).encOut = true ∧
    ∃ t, step { holding aToG 7 with port := [0x268], encOut := [0xCF, 0xC2, 0xC4, 0xC6, 0, 0, 0, 0] } = .next t :=
  ⟨by decide, _, rfl⟩

theorem witness_EncoderMeetsSource : State.reset.encCnt = 0 ∧ ([0x00] : List Byte) ≠ [] := by decide

theorem witness_SingleEndMarker : ([0x80] : List Byte) ≠ [] ∧ finished.encCnt = 0 := by decide

theorem witness_StreamsEncodeIndependently : State.reset.encCnt = 0 := by decide

theorem witness_DecoderMeetsSource : DecoderClosed { holding aToG 3 with decResult := .framingError } := by
  constructor <;> decide

theorem witness_CodecRoundTrip :
    (State.reset.encCnt = 0 ∧ DecoderClosed State.reset) ∧
    ((([] : List Byte) = [] → ([] : List Byte) = []) ∧ (([0x61] : List Byte) = [] → ([0xCF, 0x02] : List Byte) = [])) :=
  ⟨⟨rfl, rfl, rfl, rfl⟩, by decide⟩

/-- A tail cut before a whole block, and one that stops on a block boundary. -/
theorem witness_CodecRoundTrip_tail :
    ([0xCF, 0xC2, 0xC4] : List Byte) ≠ [] ∧
    (∀ k, 8 * k + 8 ≤ ([0xCF, 0xC2, 0xC4] : List Byte).length →
      hdrE (([0xCF, 0xC2, 0xC4] : List Byte).getD (8 * k) 0x00) = false) ∧
    (∀ k, 8 * k + 8 ≤ ([0x00, 1, 2, 3, 4, 5, 6, 7] : List Byte).length →
      hdrE (([0x00, 1, 2, 3, 4, 5, 6, 7] : List Byte).getD (8 * k) 0x00) = false) := by
  refine ⟨by decide, fun k h => ?_, fun k h => ?_⟩
  · simp only [List.length_cons, List.length_nil] at h; omega
  · simp only [List.length_cons, List.length_nil] at h
    obtain rfl : k = 0 := by omega
    decide

theorem witness_HostPaddedEncodingDecodes :
    (([] : List Byte) = [] → 0 = 0) ∧ (([0x61] : List Byte) = [] → 2 = 0) := by decide

theorem witness_BuffersHoldTheirDepth :
    ((⟨State.reset, 0, 0⟩ : Buffered).encHeld ≤ 0 ∧ (⟨State.reset, 0, 0⟩ : Buffered).decHeld ≤ 0) ∧
    (8 ≤ 8 ∧ (⟨finished, 0, 1⟩ : Buffered).encHeld = 0 ∧ (⟨finished, 0, 1⟩ : Buffered).decHeld = 0) := by decide

end Sys2Proof.Tests
end

/-! PROOFS. What every operation of the decoder leaves of the encoder, and the statements of 00_scope.md. -/

namespace Sys2Proof.Machine

open Sys2Proof

/-! ### The decoder keeps the encoder's fields (00_scope.md R14) -/

@[refl] theorem SameEncoder.refl (s : State) : SameEncoder s s := ⟨rfl, rfl, rfl⟩

theorem SameEncoder.trans {s t u : State} (h : SameEncoder s t) (h' : SameEncoder t u) : SameEncoder s u :=
  ⟨h'.buf.trans h.buf, h'.cnt.trans h.cnt, h'.out.trans h.out⟩

theorem sameEncoder_emitDec (l : List Byte) (s : State) : SameEncoder s (s.emitDec l) := ⟨rfl, rfl, rfl⟩

theorem sameEncoder_putDec (b : Byte) (s : State) : SameEncoder s (s.putDec b) := ⟨rfl, rfl, rfl⟩

theorem sameEncoder_dropDec (s : State) : SameEncoder s s.dropDec := ⟨rfl, rfl, rfl⟩

/-- A complete block writes `DEC_OUT` and `DEC_DONE` alone, whichever kind it is (R91). -/
theorem sameEncoder_processBlock (blk : Block) (s : State) : SameEncoder s (processBlock blk s) := by
  unfold processBlock
  split <;> exact ⟨rfl, rfl, rfl⟩

theorem sameEncoder_dDataStep (b : Byte) (s : State) : SameEncoder s (dDataStep b s) := by
  unfold dDataStep
  split
  case isTrue => rfl
  case isFalse =>
    split
    case isTrue =>
      have hput : SameEncoder s (s.putDec b) := sameEncoder_putDec b s
      have hblk := hput.trans (sameEncoder_processBlock (s.putDec b).decBuf _)
      exact hblk.trans (sameEncoder_dropDec _)
    case isFalse => exact ⟨rfl, rfl, rfl⟩

theorem sameEncoder_recordEnd (s : State) : SameEncoder s (recordEnd s) := by
  unfold recordEnd
  split
  case isTrue => exact ⟨rfl, rfl, rfl⟩
  case isFalse => split <;> exact ⟨rfl, rfl, rfl⟩

theorem sameEncoder_after_dEnd (s : State) : SameEncoder s (after .dEnd s) := by
  obtain ⟨hbuf, hcnt, hout⟩ := (sameEncoder_recordEnd s).trans (sameEncoder_dropDec _)
  exact ⟨hbuf, hcnt, hout⟩

/-- The encoder and `CMD_ERR` after any instruction of the decoder's unit (R14; 60_exceptions.md R120). -/
theorem after_keeps_encoder_of_decoder {i : Instr} (hu : i.unit = .decoder) (s : State) :
    SameEncoder s (after i s) ∧ (after i s).cmdErr = s.cmdErr := by
  cases i with
  | dReset => exact ⟨⟨rfl, rfl, rfl⟩, rfl⟩
  | dData b => exact ⟨sameEncoder_dDataStep b s, dDataStep_cmdErr b s⟩
  | dEnd => exact ⟨sameEncoder_after_dEnd s, recordEnd_cmdErr s⟩
  | blkData _ q => exact ⟨sameEncoder_emitDec _ s, rfl⟩
  | blkDataS _ q => exact ⟨sameEncoder_emitDec _ s, rfl⟩
  | blkFinal _ len q => exact ⟨⟨rfl, rfl, rfl⟩, rfl⟩
  | blkFinalS _ len q => exact ⟨⟨rfl, rfl, rfl⟩, rfl⟩
  | nop | eReset | eData _ | eEnd | gReset | reserved _ _ => cases hu

/-- Settles O38: every instruction goes on to `after`, where the decoder's instructions keep the encoder. -/
theorem decoderCommandsKeepEncoder : Obligations.DecoderCommandsKeepEncoder := by
  intro i s hu
  exact ⟨after i s, exec_eq_after i s, after_keeps_encoder_of_decoder hu s⟩

/-! ### Steps (R11) -/

/-- One step is the meaning of the oldest command presented, at the state without it. -/
theorem step_eq_exec {s : State} {w : CmdWord} {rest : List CmdWord} (h : s.port = w :: rest) :
    step s = exec (decodeCommand w) { s with port := rest } := by
  simp only [step, h]

/-- Settles O17. -/
theorem stepRunsTheDecodedCommand : Obligations.StepRunsTheDecodedCommand :=
  ⟨fun _ _ _ h => step_eq_exec h, fun _ h => step_idle h⟩

/-! ### Exceptions (R10) -/

/-- Settles O26: `State.raise` is defined as the one write per exception. -/
theorem exceptionRecordsOnlyItsCode : Obligations.ExceptionRecordsOnlyItsCode := by
  constructor
  · intro n s; rfl
  · intro w s; rfl

end Sys2Proof.Machine

/-! PROOFS. The statements of 10_state.md: what every instruction does to each unit's view of the state, and what follows
for stale buffer entries, the invariants, the output streams, `CMD_ERR`, `DEC_RESULT` and `STATUS`. -/

namespace Sys2Proof.Machine

open Sys2Proof

/-! ### The encoder keeps the decoder's fields (41_encoder.md R81) -/

theorem sameDecoder_eDataStep (o : ParityOrder) (b : Byte) (s : State) : SameDecoder s (eDataStep o b s) := by
  unfold eDataStep
  split <;> exact ⟨rfl, rfl, rfl, rfl, rfl, rfl⟩

theorem sameDecoder_eEndStep (o : ParityOrder) (s : State) : SameDecoder s (eEndStep o s) := by
  unfold eEndStep
  split <;> exact ⟨rfl, rfl, rfl, rfl, rfl, rfl⟩

theorem sameDecoder_after_eReset (s : State) : SameDecoder s (after .eReset s) := by
  simp only [after]
  split <;> exact ⟨rfl, rfl, rfl, rfl, rfl, rfl⟩

theorem after_eReset_cmdErr (s : State) : (after .eReset s).cmdErr = s.cmdErr := by
  simp only [after]
  split <;> rfl

/-- The decoder and `CMD_ERR` after any instruction of the encoder's unit (R81). -/
theorem after_keeps_decoder_of_encoder {i : Instr} (hu : i.unit = .encoder) (s : State) :
    SameDecoder s (after i s) ∧ (after i s).cmdErr = s.cmdErr := by
  cases i with
  | eReset => exact ⟨sameDecoder_after_eReset s, after_eReset_cmdErr s⟩
  | eData b => exact ⟨sameDecoder_eDataStep _ b s, eDataStep_cmdErr _ b s⟩
  | eEnd => exact ⟨sameDecoder_eEndStep _ s, eEndStep_cmdErr _ s⟩
  | nop | gReset | dReset | dData _ | dEnd | reserved _ _ | blkData _ _ | blkDataS _ _ | blkFinal _ _ _
  | blkFinalS _ _ _ => cases hu

theorem SameEncoder.encView_eq {s t : State} (h : SameEncoder s t) : t.encView = s.encView := by
  simp only [State.encView, State.encBytes, h.buf, h.cnt, h.out]

theorem SameDecoder.decView_eq {s t : State} (h : SameDecoder s t) : t.decView = s.decView := by
  simp only [State.decView, State.decBytes, h.buf, h.cnt, h.done, h.seen, h.result, h.out]

/-! ### The encoder's view after its own commands -/

/-- `E.RESET` leaves no open chunk (R82); with `ENC_CNT = 0` there was none. -/
theorem after_eReset_encView (s : State) : (after .eReset s).encView = ⟨0, [], s.encOut⟩ := by
  simp only [after]
  split
  case isTrue h => simp [State.encView, State.encBytes, h]
  case isFalse => rfl

theorem encView_eq_iff {s u : State} :
    u.encView = s.encView ↔ u.encCnt = s.encCnt ∧ u.encBytes = s.encBytes ∧ u.encOut = s.encOut := by
  simp only [State.encView, EncView.mk.injEq]

/-- The block formed of the open chunk is a matter of the encoder's view (R17, R70). -/
theorem formBlock_eq_of_encView_eq (o : ParityOrder) (f : Bool) {s u : State} (h : u.encView = s.encView) :
    formBlock o u.encBuf s.encCnt f = formBlock o s.encBuf s.encCnt f := by
  obtain ⟨hcnt, hbytes, -⟩ := encView_eq_iff.mp h
  simp only [State.encBytes, hcnt] at hbytes
  exact formBlock_congr o f hbytes

/-- What any instruction makes of the encoder's view depends on that view alone. -/
theorem after_encView_congr (i : Instr) {s u : State} (h : u.encView = s.encView) :
    (after i u).encView = (after i s).encView := by
  obtain ⟨hcnt, hbytes, hout⟩ := encView_eq_iff.mp h
  have keeps (hi : i.unit = .decoder) : (after i u).encView = (after i s).encView := by
    rw [(after_keeps_encoder_of_decoder hi u).1.encView_eq, h, (after_keeps_encoder_of_decoder hi s).1.encView_eq]
  cases i with
  | nop => exact h
  | reserved op data => exact h
  | eReset => rw [after_eReset_encView, after_eReset_encView, hout]
  | eData b => simp only [after, eDataStep_encView, formBlock_eq_of_encView_eq _ _ h, hcnt, hbytes, hout]
  | eEnd => simp only [after, eEndStep_encView, formBlock_eq_of_encView_eq _ _ h, hcnt, hout]
  | gReset => exact congrArg (EncView.mk 0 []) hout
  | dReset | dData _ | dEnd | blkData _ _ | blkDataS _ _ | blkFinal _ _ _ | blkFinalS _ _ _ => exact keeps rfl

/-! ### The decoder's view after its own commands and block kinds -/

/-- Processing a block emits what the block carries, and ends the stream if the block is final (42_decoder.md R91). -/
theorem processBlock_eq_splitBlock (blk : Block) (s : State) :
    processBlock blk s =
      { s with decOut := s.decOut ++ (splitBlock blk).2, decDone := s.decDone || (splitBlock blk).1 } := by
  unfold processBlock
  split
  case h_1 hE hS => simp [splitBlock_data blk hE, hS, blkDataStep, State.emitDec]
  case h_2 hE hS => simp [splitBlock_data blk hE, hS, unshiftLanes_true_toList, blkDataSStep, State.emitDec]
  case h_3 hE hS => simp [splitBlock_final blk hE, hS, blkFinalStep, State.emitDec]
  case h_4 hE hS => simp [splitBlock_final blk hE, hS, unshiftLanes_true_toList, blkFinalSStep, State.emitDec]

/-- What `D.DATA` does to the decoder (R90, R93): nothing after the final block; else the byte completes a block or joins
one. -/
theorem dDataStep_decView (b : Byte) (s : State) :
    (dDataStep b s).decView =
      if s.decDone then s.decView
      else if s.decCnt = 7 then
        ⟨0, [], (splitBlock (s.decBuf.set 7 b)).1, true, s.decResult, s.decOut ++ (splitBlock (s.decBuf.set 7 b)).2⟩
      else ⟨s.decCnt + 1, s.decBytes ++ [b], false, true, s.decResult, s.decOut⟩ := by
  unfold dDataStep
  split
  case isTrue => rfl
  case isFalse hdone =>
    split
    case isTrue hcnt => simp [processBlock_eq_splitBlock, hdone, hcnt]
    case isFalse hcnt =>
      have hopen : s.decDone = false := Bool.eq_false_iff.mpr hdone
      rw [← State.decBytes_joined b s hcnt, ← hopen]
      rfl

theorem recordEnd_decResult (s : State) :
    (recordEnd s).decResult = if s.decDone then .ok else if s.decSeen then .framingError else .okEmpty := by
  unfold recordEnd
  split
  case isTrue => rfl
  case isFalse => split <;> rfl

theorem recordEnd_decOut (s : State) : (recordEnd s).decOut = s.decOut := by
  unfold recordEnd
  split
  case isTrue => rfl
  case isFalse => split <;> rfl

/-- `D.END` records the outcome and closes the stream (R95). -/
theorem after_dEnd_decView (s : State) :
    (after .dEnd s).decView =
      ⟨0, [], false, false, if s.decDone then .ok else if s.decSeen then .framingError else .okEmpty, s.decOut⟩ := by
  rw [← recordEnd_decResult, ← recordEnd_decOut s]
  rfl

theorem decView_eq_iff {s u : State} :
    u.decView = s.decView ↔ u.decCnt = s.decCnt ∧ u.decBytes = s.decBytes ∧ u.decDone = s.decDone ∧
      u.decSeen = s.decSeen ∧ u.decResult = s.decResult ∧ u.decOut = s.decOut := by
  simp only [State.decView, DecView.mk.injEq]

/-- A block whose eighth byte is written is fixed by its first 7 bytes and that byte. -/
theorem set_seven_congr {a c : Block} (b : Byte) (h : a.toList.take 7 = c.toList.take 7) : a.set 7 b = c.set 7 b := by
  ext j hj : 1
  by_cases hlast : j = 7
  · simp [hlast]
  · have hj' := congrArg (fun l => l[j]?) h
    simp only [List.getElem?_take_of_lt (show j < 7 by omega)] at hj'
    simpa [Vector.getElem_set, Ne.symm hlast, hj] using hj'

/-- The block that an eighth byte completes is a matter of the decoder's view (R19). -/
theorem completed_eq_of_decBytes_eq (b : Byte) {s u : State} (hs : s.decCnt = 7) (hu : u.decCnt = 7)
    (h : u.decBytes = s.decBytes) : u.decBuf.set 7 b = s.decBuf.set 7 b := by
  simp only [State.decBytes, hs, hu] at h
  exact set_seven_congr b h

theorem dDataStep_decView_congr (b : Byte) {s u : State} (h : u.decView = s.decView) :
    (dDataStep b u).decView = (dDataStep b s).decView := by
  obtain ⟨hcnt, hbytes, hdone, -, hres, hout⟩ := decView_eq_iff.mp h
  rw [dDataStep_decView, dDataStep_decView, h, hcnt, hbytes, hdone, hres, hout]
  by_cases h7 : s.decCnt = 7
  · rw [completed_eq_of_decBytes_eq b h7 (hcnt.trans h7) hbytes]
  · simp only [h7, if_false]

/-- What any instruction makes of the decoder's view depends on that view alone. -/
theorem after_decView_congr (i : Instr) {s u : State} (h : u.decView = s.decView) :
    (after i u).decView = (after i s).decView := by
  obtain ⟨hcnt, hbytes, hdone, hseen, hres, hout⟩ := decView_eq_iff.mp h
  have keeps (hi : i.unit = .encoder) : (after i u).decView = (after i s).decView := by
    rw [(after_keeps_decoder_of_encoder hi u).1.decView_eq, h, (after_keeps_decoder_of_encoder hi s).1.decView_eq]
  cases i with
  | nop => exact h
  | reserved op data => exact h
  | gReset | dReset => exact congrArg (DecView.mk 0 [] false false .none) hout
  | dData b => exact dDataStep_decView_congr b h
  | dEnd => rw [after_dEnd_decView, after_dEnd_decView, hdone, hseen, hout]
  | blkData _ q | blkDataS _ q =>
    exact decView_eq_iff.mpr ⟨hcnt, hbytes, hdone, hseen, hres, congrArg (· ++ _) hout⟩
  | blkFinal _ len q | blkFinalS _ len q =>
    exact decView_eq_iff.mpr ⟨hcnt, hbytes, rfl, hseen, hres, congrArg (· ++ _) hout⟩
  | eReset | eData _ | eEnd => exact keeps rfl

/-! ### `CMD_ERR` (10_state.md R23) -/

/-- `CMD_ERR` after any instruction: set by a reserved command, cleared by `G.RESET`, kept by every other. -/
theorem after_cmdErr (i : Instr) (s : State) :
    (after i s).cmdErr = match i with
      | .reserved _ _ => true
      | .gReset => false
      | _ => s.cmdErr := by
  cases i with
  | nop | gReset | reserved _ _ => rfl
  | eReset | eData _ | eEnd => exact (after_keeps_decoder_of_encoder rfl s).2
  | dReset | dData _ | dEnd | blkData _ _ | blkDataS _ _ | blkFinal _ _ _ | blkFinalS _ _ _ =>
    exact (after_keeps_encoder_of_decoder rfl s).2

theorem after_cmdErr_congr (i : Instr) {s u : State} (h : u.cmdErr = s.cmdErr) :
    (after i u).cmdErr = (after i s).cmdErr := by
  rw [after_cmdErr, after_cmdErr, h]

/-- Settles O40: `after_cmdErr` tells the two writers from the rest. -/
theorem cmdErrIsSticky : Obligations.CmdErrIsSticky := by
  refine ⟨rfl, fun i s => ⟨after i s, exec_eq_after i s, ?_⟩⟩
  rw [after_cmdErr]
  cases i <;> simp

/-! ### Stale buffer entries (R17, R19, R29) -/

theorem SameDefined.after {s u : State} (h : SameDefined s u) (i : Instr) : SameDefined (after i s) (after i u) where
  enc := after_encView_congr i h.enc
  dec := after_decView_congr i h.dec
  err := after_cmdErr_congr i h.err
  port := by rw [after_port, after_port, h.port]

/-- Settles O44: each unit's view after an instruction is a function of its view before. -/
theorem staleBytesNeverShow : Obligations.StaleBytesNeverShow := by
  intro i s u h
  exact ⟨after i s, after i u, exec_eq_after i s, exec_eq_after i u, h.after i⟩

/-! ### The output streams (R24) -/

/-- `ENC_OUT` grows by at most one block, in the encoder's own commands alone. -/
theorem after_encOut_of_encoder {i : Instr} (hu : i.unit = .encoder) (s : State) :
    ∃ a, (after i s).encOut = s.encOut ++ a ∧ (a.length = 0 ∨ a.length = 8) := by
  cases i with
  | eReset => exact ⟨[], by rw [List.append_nil]; exact congrArg EncView.out (after_eReset_encView s), .inl rfl⟩
  | eData b =>
    have h := congrArg EncView.out (eDataStep_encView Config.parityOrder b s)
    split at h
    · exact ⟨_, h, .inr Vector.length_toList⟩
    · exact ⟨[], h.trans (List.append_nil _).symm, .inl rfl⟩
  | eEnd =>
    have h := congrArg EncView.out (eEndStep_encView Config.parityOrder s)
    split at h
    · exact ⟨[], h.trans (List.append_nil _).symm, .inl rfl⟩
    · exact ⟨_, h, .inr Vector.length_toList⟩
  | nop | gReset | dReset | dData _ | dEnd | reserved _ _ | blkData _ _ | blkDataS _ _ | blkFinal _ _ _
  | blkFinalS _ _ _ => cases hu

/-- `DEC_OUT` grows by at most the 7 bytes of one block, in the decoder's own commands and block kinds alone. -/
theorem after_decOut_of_decoder {i : Instr} (hu : i.unit = .decoder) (s : State) :
    ∃ b, (after i s).decOut = s.decOut ++ b ∧ b.length ≤ 7 := by
  cases i with
  | dReset => exact ⟨[], (List.append_nil _).symm, Nat.zero_le 7⟩
  | dData b =>
    have h := congrArg DecView.out (dDataStep_decView b s)
    split at h
    · exact ⟨[], h.trans (List.append_nil _).symm, Nat.zero_le 7⟩
    · split at h
      · exact ⟨_, h, splitBlock_length_le _⟩
      · exact ⟨[], h.trans (List.append_nil _).symm, Nat.zero_le 7⟩
  | dEnd => exact ⟨[], by rw [List.append_nil]; exact congrArg DecView.out (after_dEnd_decView s), Nat.zero_le 7⟩
  | blkData _ q => exact ⟨_, rfl, by simp⟩
  | blkDataS _ q => exact ⟨_, rfl, by simp⟩
  | blkFinal _ len q => exact ⟨_, rfl, by simp⟩
  | blkFinalS _ len q => exact ⟨_, rfl, by simp⟩
  | nop | eReset | eData _ | eEnd | gReset | reserved _ _ => cases hu

theorem after_outputs_of_block {i : Instr} (hu : i.unit = .block) (s : State) :
    (after i s).encOut = s.encOut ∧ (after i s).decOut = s.decOut := by
  cases i with
  | nop | gReset | reserved _ _ => exact ⟨rfl, rfl⟩
  | eReset | eData _ | eEnd | dReset | dData _ | dEnd | blkData _ _ | blkDataS _ _ | blkFinal _ _ _
  | blkFinalS _ _ _ => cases hu

/-- What an instruction adds to the streams, by the unit it is a step of. -/
theorem after_outputs (i : Instr) (s : State) :
    ∃ a b, (after i s).encOut = s.encOut ++ a ∧ (after i s).decOut = s.decOut ++ b ∧
      (a = [] ∨ b = []) ∧ (a.length = 0 ∨ a.length = 8) ∧ b.length ≤ 7 := by
  cases hu : i.unit with
  | block =>
    obtain ⟨henc, hdec⟩ := after_outputs_of_block hu s
    exact ⟨[], [], by simp [henc], by simp [hdec], .inl rfl, .inl rfl, Nat.zero_le 7⟩
  | encoder =>
    obtain ⟨a, henc, hlen⟩ := after_encOut_of_encoder hu s
    have hdec := (after_keeps_decoder_of_encoder hu s).1.out
    exact ⟨a, [], henc, by simp [hdec], .inr rfl, hlen, Nat.zero_le 7⟩
  | decoder =>
    obtain ⟨b, hdec, hlen⟩ := after_decOut_of_decoder hu s
    have henc := (after_keeps_encoder_of_decoder hu s).1.out
    exact ⟨[], b, by simp [henc], hdec, .inl rfl, .inl rfl, hlen⟩

/-- Settles O39: only the instruction's own unit adds to a stream. -/
theorem outputsOnlyGrow : Obligations.OutputsOnlyGrow := by
  intro i s
  obtain ⟨a, b, h⟩ := after_outputs i s
  exact ⟨after i s, a, b, exec_eq_after i s, h⟩

/-! ### `DEC_RESULT` (R22) -/

theorem dDataStep_decResult (b : Byte) (s : State) : (dDataStep b s).decResult = s.decResult := by
  have h := congrArg DecView.result (dDataStep_decView b s)
  split at h
  · exact h
  · split at h <;> exact h

theorem after_dEnd_decResult_ne_none (s : State) : (after .dEnd s).decResult ≠ .none := by
  have h : (after .dEnd s).decResult = _ := congrArg DecView.result (after_dEnd_decView s)
  rw [h]
  split
  case isTrue => simp
  case isFalse => split <;> simp

/-- Every instruction but the three writers of `DEC_RESULT` keeps it. -/
theorem after_decResult {i : Instr} (hEnd : i ≠ .dEnd) (hDReset : i ≠ .dReset) (hGReset : i ≠ .gReset) (s : State) :
    (after i s).decResult = s.decResult := by
  cases i with
  | nop | reserved _ _ | blkData _ _ | blkDataS _ _ | blkFinal _ _ _ | blkFinalS _ _ _ => rfl
  | eReset | eData _ | eEnd => exact (after_keeps_decoder_of_encoder rfl s).1.result
  | dData b => exact dDataStep_decResult b s
  | dEnd => exact absurd rfl hEnd
  | dReset => exact absurd rfl hDReset
  | gReset => exact absurd rfl hGReset

/-- Settles O41: `D.END` records one of three outcomes, the resets clear it, and the rest keep it. -/
theorem decResultWriters : Obligations.DecResultWriters := by
  intro i s
  refine ⟨after i s, exec_eq_after i s, ?_, ?_, fun hEnd hD hG => after_decResult hEnd hD hG s⟩
  · rintro rfl
    exact after_dEnd_decResult_ne_none s
  · rintro (rfl | rfl) <;> rfl

/-! ### The invariants (R30) -/

/-- The part of `State.Inv` that speaks of the decoder, over its view. -/
structure DecView.Inv (v : DecView) : Prop where
  done_cnt : v.done = true → v.cnt = 0
  cnt_seen : v.cnt ≠ 0 → v.seen = true
  done_seen : v.done = true → v.seen = true

theorem inv_iff (s : State) : s.Inv ↔ s.encOut.length % 8 = 0 ∧ s.decView.Inv :=
  ⟨fun ⟨hout, hcnt, hseen, hdone⟩ => ⟨hout, hcnt, hseen, hdone⟩,
    fun ⟨hout, hcnt, hseen, hdone⟩ => ⟨hout, hcnt, hseen, hdone⟩⟩

/-- A closed decoder meets the invariants. -/
theorem DecView.inv_closed (r : DecResult) (out : List Byte) : DecView.Inv ⟨0, [], false, false, r, out⟩ where
  done_cnt h := nomatch h
  cnt_seen h := absurd rfl h
  done_seen h := nomatch h

/-- `D.DATA` sets `DEC_SEEN`, and completes a block with `DEC_CNT = 0`. -/
theorem dDataStep_keeps_inv (b : Byte) {s : State} (h : s.decView.Inv) : (dDataStep b s).decView.Inv := by
  rw [dDataStep_decView]
  split
  case isTrue => exact h
  case isFalse =>
    split
    case isTrue => exact ⟨fun _ => rfl, fun _ => rfl, fun _ => rfl⟩
    case isFalse => exact { done_cnt := fun hd => (nomatch hd), cnt_seen := fun _ => rfl, done_seen := fun _ => rfl }

/-- The commands keep the decoder's invariants. (A block kind on its own need not: it runs inside `D.DATA`, which then
clears `DEC_CNT`.) -/
theorem after_decodeCommand_keeps_decInv (w : CmdWord) {s : State} (h : s.decView.Inv) :
    (after (decodeCommand w) s).decView.Inv := by
  have keeps {i : Instr} (hi : i.unit = .encoder) : (after i s).decView.Inv := by
    rwa [(after_keeps_decoder_of_encoder hi s).1.decView_eq]
  unfold decodeCommand
  split
  case h_1 => exact h
  case h_2 | h_3 | h_4 => exact keeps rfl
  case h_5 | h_6 => exact DecView.inv_closed .none s.decOut
  case h_7 => exact dDataStep_keeps_inv _ h
  case h_8 => rw [after_dEnd_decView]; exact DecView.inv_closed _ _
  case h_9 => exact h

/-- `ENC_OUT` grows by 0 or 8 bytes, so its length stays a multiple of 8. -/
theorem after_encOut_whole (i : Instr) {s : State} (h : s.encOut.length % 8 = 0) :
    (after i s).encOut.length % 8 = 0 := by
  obtain ⟨a, b, henc, -, -, hlen, -⟩ := after_outputs i s
  rw [henc, List.length_append]
  omega

theorem after_decodeCommand_keeps_inv (w : CmdWord) {s : State} (h : s.Inv) : (after (decodeCommand w) s).Inv := by
  obtain ⟨hout, hdec⟩ := (inv_iff s).mp h
  exact (inv_iff _).mpr ⟨after_encOut_whole _ hout, after_decodeCommand_keeps_decInv w hdec⟩

/-- What a step can do: idle with no command presented, or take the oldest one. -/
theorem step_next_cases {s t : State} (h : step s = .next t) :
    (s.port = [] ∧ t = s) ∨
      ∃ w rest, s.port = w :: rest ∧ t = { after (decodeCommand w) s with port := rest } := by
  cases hp : s.port with
  | nil =>
    rw [step_idle hp] at h
    exact .inl ⟨rfl, (Host.Outcome.next.inj h).symm⟩
  | cons w rest =>
    rw [step_cons hp] at h
    exact .inr ⟨w, rest, rfl, (Host.Outcome.next.inj h).symm⟩

/-- The invariants do not speak of the commands to come. -/
theorem inv_port_put (p : List CmdWord) {s : State} (h : s.Inv) : ({ s with port := p } : State).Inv :=
  (inv_iff _).mpr ((inv_iff s).mp h)

/-- Settles O45: the command taken keeps the invariants, and the port is none of their business. -/
theorem stepKeepsInvariants : Obligations.StepKeepsInvariants := by
  intro s t hinv hstep
  obtain ⟨-, rfl⟩ | ⟨w, rest, -, rfl⟩ := step_next_cases hstep
  · exact hinv
  · exact inv_port_put rest (after_decodeCommand_keeps_inv w hinv)

/-- Settles O46: power-on reset leaves the decoder closed and `ENC_OUT` empty. -/
theorem resetMeetsInvariants : Obligations.ResetMeetsInvariants :=
  (inv_iff State.reset).mpr ⟨rfl, DecView.inv_closed .none []⟩

/-! ### `STATUS` (R27, R31) -/

/-- Settles O21: reset gives every field its value, and an empty port leaves the step idle. -/
theorem powerOnResetState : Obligations.PowerOnResetState :=
  ⟨rfl, rfl, rfl, rfl, rfl, rfl, by decide, rfl, rfl, step_idle rfl⟩

/-- Each bit of `STATUS` is the OR of that bit of the fields, each moved to its place (R27). -/
theorem status_getLsbD (s : State) {i : Nat} (hi : i < 16) :
    s.status.getLsbD i =
      ((!decide (i < 11) && (BitVec.ofBool s.cmdErr).getLsbD (i - 11)) ||
        (!decide (i < 9) && s.decResult.code.getLsbD (i - 9)) ||
        (!decide (i < 8) && (BitVec.ofBool s.decSeen).getLsbD (i - 8)) ||
        (!decide (i < 7) && (BitVec.ofBool s.decDone).getLsbD (i - 7)) ||
        (!decide (i < 4) && s.decCnt.getLsbD (i - 4)) || s.encCnt.getLsbD i) := by
  simp [State.status, hi]

/-- A field of a word is known from its bits. -/
theorem extractLsb'_eq_of_getLsbD {n k w : Nat} {x : BitVec n} {f : BitVec w}
    (h : ∀ i < w, x.getLsbD (k + i) = f.getLsbD i) : x.extractLsb' k w = f := by
  apply BitVec.eq_of_getLsbD_eq
  intro i hi
  rw [BitVec.getLsbD_extractLsb', h i hi]
  simp [hi]

/-- The fields of more than one bit, and the reserved bits on top. -/
theorem status_fields (s : State) :
    s.status.extractLsb' 0 3 = s.encCnt ∧ s.status.extractLsb' 4 3 = s.decCnt ∧
      s.status.extractLsb' 9 2 = s.decResult.code ∧ s.status.extractLsb' 12 4 = 0x0#4 := by
  refine ⟨?_, ?_, ?_, ?_⟩
  all_goals
    refine extractLsb'_eq_of_getLsbD fun i hi => ?_
    rw [status_getLsbD s (by omega)]
    interval_cases i <;> simp

/-- The one-bit fields, and the reserved bit below `DEC_CNT`. -/
theorem status_bits (s : State) :
    s.status.getLsbD 3 = false ∧ s.status.getLsbD 7 = s.decDone ∧ s.status.getLsbD 8 = s.decSeen ∧
      s.status.getLsbD 11 = s.cmdErr := by
  refine ⟨?_, ?_, ?_, ?_⟩
  all_goals
    rw [status_getLsbD s (by decide)]
    simp

/-- Settles O22: the codes are the definition's, the layout is read off bit by bit. -/
theorem statusLayout : Obligations.StatusLayout := by
  refine ⟨⟨rfl, rfl, rfl, rfl⟩, fun s => ?_⟩
  obtain ⟨hencCnt, hdecCnt, hresult, hreserved⟩ := status_fields s
  obtain ⟨hbit3, hdone, hseen, herr⟩ := status_bits s
  exact ⟨hencCnt, hbit3, hdecCnt, hdone, hseen, hresult, herr, hreserved⟩

end Sys2Proof.Machine

/-! PROOFS. The decoders and the encoder of 30_encoding.md undo each other, and agree with the opcode table and the unit
column of the opcode map. -/

namespace Sys2Proof

/-! ### The block decoder on a header laid out from its fields (R55, R58) -/

@[simp] theorem decodeBlock_hdrData (pv : BitVec 6) (s : Bool) (q : Chunk) :
    decodeBlock (blockOf (hdrData pv s) q) = if s then .blkDataS pv q else .blkData pv q := by
  cases s <;> simp [decodeBlock]

@[simp] theorem decodeBlock_hdrFinal (pvHi len : BitVec 3) (s : Bool) (q : Chunk) :
    decodeBlock (blockOf (hdrFinal pvHi len s) q) = if s then .blkFinalS pvHi len q else .blkFinal pvHi len q := by
  cases s <;> simp [decodeBlock]

/-- Settles O2: a command's word keeps its `OP` and operand, a block's header every field. -/
theorem decodeAfterEncodeIsIdentity : Obligations.DecodeAfterEncodeIsIdentity := by
  intro i hwf
  cases i with
  | nop => exact decodeCommand_nop 0x00
  | eReset => exact decodeCommand_eReset 0x00
  | eData b => exact decodeCommand_eData b
  | eEnd => exact decodeCommand_eEnd 0x00
  | gReset => exact decodeCommand_gReset 0x00
  | dReset => exact decodeCommand_dReset 0x00
  | dData b => exact decodeCommand_dData b
  | dEnd => exact decodeCommand_dEnd 0x00
  | reserved op data => exact decodeCommand_reserved data (of_decide_eq_true hwf)
  | blkData pv q => exact decodeBlock_hdrData pv false q
  | blkDataS pv q => exact decodeBlock_hdrData pv true q
  | blkFinal pvHi len q => exact decodeBlock_hdrFinal pvHi len false q
  | blkFinalS pvHi len q => exact decodeBlock_hdrFinal pvHi len true q

/-! ### Encoding what was decoded -/

/-- Every block is laid out from a non-final or a final header's fields and its payload (R55, R61). -/
theorem block_cases {motive : Block → Prop} (data : ∀ pv s q, motive (blockOf (hdrData pv s) q))
    (final : ∀ pvHi len s q, motive (blockOf (hdrFinal pvHi len s) q)) (blk : Block) : motive blk := by
  rw [← blockOf_fields blk]
  cases hE : hdrE blk[0] with
  | false => rw [← hdrData_fields _ hE]; exact data _ _ _
  | true => rw [← hdrFinal_fields _ hE]; exact final _ _ _ _

theorem encode_decodeBlock (blk : Block) : encode (decodeBlock blk) = .block blk := by
  induction blk using block_cases with
  | data pv s q => cases s <;> simp [encode]
  | final pvHi len s q => cases s <;> simp [encode]

theorem decodeBlock_wf (blk : Block) : (decodeBlock blk).WellFormed := by
  unfold decodeBlock
  split <;> rfl

theorem encode_decodeCommand (w : CmdWord) : encode (decodeCommand w) =
    .command (if cmdOp w = 0x2 ∨ cmdOp w = 0x6 ∨ 8 ≤ (cmdOp w).toNat then w else cmdWord (cmdOp w) 0x00) := by
  induction w using commandWord_cases with
  | reserved op d h => simp [decodeCommand_reserved d h, h, encode]
  | nop d | eReset d | eData d | eEnd d | gReset d | dReset d | dData d | dEnd d => simp [encode]

theorem decodeCommand_wf (w : CmdWord) : (decodeCommand w).WellFormed := by
  induction w using commandWord_cases with
  | reserved op d h => rw [decodeCommand_reserved d h]; exact decide_eq_true h
  | nop d | eReset d | eData d | eEnd d | gReset d | dReset d | dData d | dEnd d => simp [Instr.WellFormed, Instr.wf]

/-- Settles O3: a block has no ignored bit, and a command word none outside an unused `DATA`. -/
theorem encodeAfterDecodeKeepsEveryReadBit : Obligations.EncodeAfterDecodeKeepsEveryReadBit :=
  ⟨encode_decodeBlock, encode_decodeCommand, decodeCommand_wf, decodeBlock_wf⟩

/-! ### The opcode table (R66) and the units (R50) -/

theorem commandRows_mask : ∀ r ∈ commandRows, r.mask = 0xF00 ∨ r.mask = 0x800 := by decide

/-- No command row's mask reaches into `DATA`. -/
theorem commandRow_accepts_cmdWord (op : BitVec 4) (d : Byte) {r : OpcodeRow 12} (hr : r ∈ commandRows) :
    r.accepts (cmdWord op d) = r.accepts (cmdWord op 0x00) := by
  rcases commandRows_mask r hr with hm | hm
  · simp only [OpcodeRow.accepts, hm, cmdWord_and_F00]
  · simp only [OpcodeRow.accepts, hm, cmdWord_and_800]

theorem commandRows_filter_cmdWord (op : BitVec 4) (d : Byte) :
    commandRows.filter (·.accepts (cmdWord op d)) = commandRows.filter (·.accepts (cmdWord op 0x00)) :=
  List.filter_congr fun _ hr => commandRow_accepts_cmdWord op d hr

theorem commandRows_accept_one (w : CmdWord) :
    (commandRows.filter (·.accepts w)).map (·.mnemonic) = [(decodeCommand w).mnemonic] := by
  induction w using commandWord_cases with
  | reserved op d h =>
    rw [commandRows_filter_cmdWord, decodeCommand_reserved d h]
    simp only [Instr.mnemonic]
    revert op; decide
  | nop d | eReset d | eData d | eEnd d | gReset d | dReset d | dData d | dEnd d =>
    rw [commandRows_filter_cmdWord]
    simp only [decodeCommand_nop, decodeCommand_eReset, decodeCommand_eData, decodeCommand_eEnd, decodeCommand_gReset,
      decodeCommand_dReset, decodeCommand_dData, decodeCommand_dEnd]
    rfl

/-- A header row's mask keeps `E` and `S` alone (R55). -/
theorem header_and_three {h : Byte} {E S : Bool} (hE : hdrE h = E) (hS : hdrS h = S) :
    h &&& 0x03 = 0#6 ++ BitVec.ofBool E ++ BitVec.ofBool S := by
  subst hE hS
  revert h; decide

theorem headerRows_accept_one (blk : Block) :
    (headerRows.filter (·.accepts blk[0])).map (·.mnemonic) = [(decodeBlock blk).mnemonic] := by
  unfold decodeBlock
  split
  all_goals
    next hE hS =>
    simp only [headerRows, List.filter_cons, OpcodeRow.accepts, header_and_three hE hS]
    rfl

/-- Settles O4: the masks read `OP` of a command word, and `E` and `S` of a header, as the decoders do. -/
theorem everyWordHasExactlyOneRow : Obligations.EveryWordHasExactlyOneRow :=
  ⟨commandRows_accept_one, fun h q => headerRows_accept_one (blockOf h q)⟩

/-- Settles O6: the eight commands one by one; for a reserved one `OP[3]` is set. -/
theorem opcodeBitsSelectUnit : Obligations.OpcodeBitsSelectUnit := by
  intro w
  induction w using commandWord_cases with
  | reserved op d h =>
    have hbit : op.getLsbD 3 = true := by revert op; decide
    simp [decodeCommand_reserved d h, hbit, Instr.unit]
  | nop d | eReset d | eData d | eEnd d | gReset d | dReset d | dData d | dEnd d => simp [Instr.unit]

/-- Settles O1: nine closed words, decoded by evaluation. -/
theorem writtenOutWordsDecode : Obligations.WrittenOutWordsDecode := by
  unfold Obligations.WrittenOutWordsDecode
  decide

end Sys2Proof

/-! PROOFS. What 30_encoding.md says of blocks as the machine runs them: the blocks it forms are legal and `ENC_OUT` stays
framed, the decoder ignores the informational bits of a header, and a placed word is what the next step runs. -/

namespace Sys2Proof.Machine

open Sys2Proof

/-! ### The formed header's fields (R55, R56, R57) -/

theorem headerBase_eq_hdrData (o : ParityOrder) (ch : Chunk) (s : Bool) :
    headerBase o ch s = hdrData (parityValue o ch) s := by
  unfold headerBase
  generalize parityValue o ch = pv
  revert pv s; decide

/-- `LEN` and the end flag take the place of the three low parity bits. -/
theorem headerFinal_eq_hdrFinal (o : ParityOrder) (ch : Chunk) (s : Bool) (n : BitVec 3) :
    headerFinal o ch s n = hdrFinal ((parityValue o ch).extractLsb' 3 3) n s := by
  unfold headerFinal
  rw [headerBase_eq_hdrData]
  generalize parityValue o ch = pv
  revert pv s n; decide

section

variable (o : ParityOrder) (buf : Chunk) (n : BitVec 3) (f : Bool)

theorem formBlock_hdrS : hdrS (formBlock o buf n f)[0] = shiftable (pad7 buf n) n := by
  rw [formBlock_header, headerBase_eq_hdrData, headerFinal_eq_hdrFinal]
  cases f <;> simp

theorem formBlock_hdrE : hdrE (formBlock o buf n f)[0] = f := by
  rw [formBlock_header, headerBase_eq_hdrData, headerFinal_eq_hdrFinal]
  cases f <;> simp

theorem formBlock_hdrLen : hdrLen (formBlock o buf n true)[0] = n := by
  rw [formBlock_header, headerFinal_eq_hdrFinal]
  simp

end

/-! ### Formed blocks are legal (R57, R60, R61, R79) -/

theorem legalBlock_iff (h : Byte) (q : List Byte) : legalBlock h q = true ↔
    (hdrS h = true → ∀ b ∈ q, b.getLsbD 0 = false) ∧
      (hdrE h = true → hdrLen h ≠ 0 ∧ ∀ b ∈ q.drop (hdrLen h).toNat, b = 0x00) := by
  cases hS : hdrS h <;> cases hE : hdrE h <;> simp [legalBlock, hS, hE]

/-- A byte shifted left is even. -/
theorem shiftLanes_true_even (ch : Chunk) : ∀ b ∈ (shiftLanes ch true).toList, b.getLsbD 0 = false := by
  intro b hb
  obtain ⟨j, hj, rfl⟩ := List.mem_iff_getElem.mp hb
  simp [shiftLanes]

/-- The shifter keeps the padding zero. -/
theorem shiftLanes_pad7_drop (buf : Chunk) (n : BitVec 3) (s : Bool) :
    ∀ b ∈ (shiftLanes (pad7 buf n) s).toList.drop n.toNat, b = 0x00 := by
  intro b hb
  obtain ⟨j, hj, rfl⟩ := List.mem_drop_iff_getElem.mp hb
  simp [shiftLanes, pad7]

theorem formBlock_legal (o : ParityOrder) (buf : Chunk) (n : BitVec 3) (f : Bool) (hn : f = true → n ≠ 0) :
    legalBlock (formBlock o buf n f)[0] (blockPayload (formBlock o buf n f)).toList = true := by
  rw [legalBlock_iff, formBlock_hdrS, formBlock_hdrE, formBlock_payload]
  constructor
  · intro hs
    rw [hs]
    exact shiftLanes_true_even _
  · rintro rfl
    rw [formBlock_hdrLen]
    exact ⟨hn rfl, shiftLanes_pad7_drop buf n _⟩

/-! ### Framed streams -/

/-- A framed stream goes on being framed exactly when what follows it is. -/
theorem framed_append {xs : List Byte} (ys : List Byte) (hxs : framed xs = true) : framed (xs ++ ys) = framed ys := by
  induction xs using framed.induct with
  | case1 => rfl
  | case2 h q0 q1 q2 q3 q4 q5 q6 rest ih =>
    simp only [framed, Bool.and_eq_true] at hxs
    simp [framed, hxs, ih]
  | case3 xs hne hblk => simp [framed] at hxs

theorem framed_block (blk : Block) : framed blk.toList = legalBlock blk[0] (blockPayload blk).toList := by
  rw [← blockOf_fields blk]
  simp [blockOf, blockPayload, framed]

/-- A formed block that is final only with real bytes in it goes on a framed stream. -/
theorem framed_append_formBlock {xs : List Byte} (hxs : framed xs = true) (o : ParityOrder) (buf : Chunk) {n : BitVec 3}
    {f : Bool} (hn : f = true → n ≠ 0) : framed (xs ++ (formBlock o buf n f).toList) = true := by
  rw [framed_append _ hxs, framed_block, formBlock_legal o buf n f hn]

theorem eDataStep_encOut (o : ParityOrder) (b : Byte) (s : State) :
    (eDataStep o b s).encOut =
      if s.encCnt = 7 then s.encOut ++ (formBlock o s.encBuf s.encCnt false).toList else s.encOut :=
  (congrArg EncView.out (eDataStep_encView o b s)).trans (apply_ite EncView.out _ _ _)

theorem eEndStep_encOut (o : ParityOrder) (s : State) :
    (eEndStep o s).encOut =
      if s.encCnt = 0 then s.encOut else s.encOut ++ (formBlock o s.encBuf s.encCnt true).toList :=
  congrArg EncView.out (eEndStep_encView o s)

theorem eDataStep_keeps_framed (o : ParityOrder) (b : Byte) {s : State} (h : framed s.encOut = true) :
    framed (eDataStep o b s).encOut = true := by
  rw [eDataStep_encOut]
  split
  case isTrue => exact framed_append_formBlock h _ _ (nomatch ·)
  case isFalse => exact h

/-- An open stream holds at least one byte, so its final block has `LEN` from 1. -/
theorem eEndStep_keeps_framed (o : ParityOrder) {s : State} (h : framed s.encOut = true) :
    framed (eEndStep o s).encOut = true := by
  rw [eEndStep_encOut]
  split
  case isTrue => exact h
  case isFalse hcnt => exact framed_append_formBlock h _ _ fun _ => hcnt

theorem after_keeps_framed (i : Instr) {s : State} (h : framed s.encOut = true) : framed (after i s).encOut = true := by
  cases hu : i.unit with
  | block => rwa [(after_outputs_of_block hu s).1]
  | decoder => rwa [(after_keeps_encoder_of_decoder hu s).1.out]
  | encoder =>
    cases i with
    | eReset =>
      have hout : (after .eReset s).encOut = s.encOut := congrArg EncView.out (after_eReset_encView s)
      rwa [hout]
    | eData b => exact eDataStep_keeps_framed _ b h
    | eEnd => exact eEndStep_keeps_framed _ h
    | nop | gReset | dReset | dData _ | dEnd | reserved _ _ | blkData _ _ | blkDataS _ _ | blkFinal _ _ _
    | blkFinalS _ _ _ => cases hu

/-- Settles O47: a step is idle or runs one command, and what a command adds to `ENC_OUT` is a legal block. -/
theorem stepKeepsEncOutFramed : Obligations.StepKeepsEncOutFramed := by
  intro s t hs hstep
  obtain ⟨-, rfl⟩ | ⟨w, rest, -, rfl⟩ := step_next_cases hstep
  · exact hs
  · exact after_keeps_framed (decodeCommand w) hs

/-! ### Block kinds run what a block carries -/

theorem after_decodeBlock (blk : Block) (s : State) : after (decodeBlock blk) s = processBlock blk s := by
  unfold decodeBlock
  split
  all_goals
    next hE hS => simp only [after, processBlock, hE, hS]

/-- What a block carries depends on `S`, `E` and, if it is final, `LEN` (R59). -/
theorem splitBlock_blockOf_congr {h g : Byte} (q : Chunk) (hS : hdrS h = hdrS g) (hE : hdrE h = hdrE g)
    (hLen : hdrE h = true → hdrLen h = hdrLen g) : splitBlock (blockOf h q) = splitBlock (blockOf g q) := by
  cases hf : hdrE h with
  | false =>
    rw [splitBlock_data (blockOf h q) hf, splitBlock_data (blockOf g q) (hE.symm.trans hf)]
    simp [hS]
  | true =>
    rw [splitBlock_final (blockOf h q) hf, splitBlock_final (blockOf g q) (hE.symm.trans hf)]
    simp [hS, hLen hf]

/-- Settles O16: both headers give a block that carries the same. -/
theorem informationalBitsIgnored : Obligations.InformationalBitsIgnored := by
  intro h g q s hS hE hLen
  rw [exec_eq_after, exec_eq_after, after_decodeBlock, after_decodeBlock, processBlock_eq_splitBlock,
    processBlock_eq_splitBlock, splitBlock_blockOf_congr q hS hE hLen]

/-! ### Placed words (log entry 5) -/

theorem step_withFetched_command (w : CmdWord) (s : State) :
    step (s.withFetched (.command w)) = exec (decodeCommand w) s :=
  step_eq_exec rfl

/-- The eighth byte of a block processes it (R90, R91). -/
theorem dDataStep_eighth {b : Byte} {s : State} {blk : Block} (hdone : s.decDone = false) (hcnt : s.decCnt = 7)
    (hblk : s.decBuf.set 7 b = blk) : dDataStep b s = (processBlock blk (s.putDec b)).dropDec := by
  subst hblk
  simp [dDataStep, hdone, hcnt]

/-- The 7 bytes `withFetched` places and the eighth it presents are the block. -/
theorem placed_set_last (blk : Block) (b : Byte) :
    (#v[blk[0], blk[1], blk[2], blk[3], blk[4], blk[5], blk[6], b] : Block).set 7 blk[7] = blk := by
  ext j hj
  interval_cases j <;> rfl

/-- A placed block is processed by the `D.DATA` that brings its eighth byte. -/
theorem step_withFetched_block (blk : Block) (s : State) :
    step (s.withFetched (.block blk)) =
      .next (processBlock blk (State.putDec blk[7] { s.withFetched (.block blk) with port := s.port })).dropDec := by
  rw [step_eq_exec rfl, exec_eq_after]
  refine congrArg Host.Outcome.next ?_
  calc after (decodeCommand (cmdWord 0x6 blk[7])) { s.withFetched (.block blk) with port := s.port }
    _ = dDataStep blk[7] { s.withFetched (.block blk) with port := s.port } :=
      congrArg (after · _) (decodeCommand_dData blk[7])
    _ = (processBlock blk (State.putDec blk[7] { s.withFetched (.block blk) with port := s.port })).dropDec :=
      dDataStep_eighth rfl rfl (placed_set_last blk s.decBuf[7])

/-- A placed block leaves, outside the decoder's buffer, what its block kind leaves. -/
theorem step_withFetched_block_agrees (blk : Block) (s : State) :
    ∃ t u, step (s.withFetched (.block blk)) = .next t ∧ exec (decodeBlock blk) { s with decDone := false } = .next u ∧
      t.decOut = u.decOut ∧ t.decDone = u.decDone ∧ t.decResult = u.decResult ∧
      SameEncoder u t ∧ t.cmdErr = u.cmdErr ∧ t.port = u.port := by
  refine ⟨_, _, step_withFetched_block blk s, exec_eq_after _ _, ?_⟩
  rw [after_decodeBlock, processBlock_eq_splitBlock, processBlock_eq_splitBlock]
  exact ⟨rfl, rfl, rfl, ⟨rfl, rfl, rfl⟩, rfl, rfl⟩

theorem withFetchWord_of_tableEncoding {nbits w : Nat} {e : Encoding} (s : State) (h : tableEncoding nbits w = .ok e) :
    s.withFetchWord nbits w = s.withFetched e ∧ decodeTableWord nbits w = some (decode e) := by
  simp [State.withFetchWord, decodeTableWord, decodeTable, h]

theorem tableEncoding_command (w : CmdWord) :
    tableEncoding 16 w.toNat = .ok (.command w) ∧ tableEncoding 12 w.toNat = .ok (.command w) := by
  have := w.isLt
  simp [tableEncoding, this]

/-- The number whose bytes are `l`, byte 0 the least significant. -/
def bytesNumber (l : List Byte) : Nat := l.foldr (fun b n => b.toNat + 256 * n) 0

@[simp] theorem bytesNumber_nil : bytesNumber [] = 0 := rfl

@[simp] theorem bytesNumber_cons (b : Byte) (l : List Byte) : bytesNumber (b :: l) = b.toNat + 256 * bytesNumber l := rfl

theorem bytesNumber_lt (l : List Byte) : bytesNumber l < 256 ^ l.length := by
  induction l with
  | nil => simp
  | cons b l ih =>
    have := b.isLt
    simp only [bytesNumber_cons, List.length_cons, Nat.pow_succ]
    omega

theorem byteOfNat_bytesNumber (l : List Byte) (j : Nat) (hj : j < l.length) : byteOfNat (bytesNumber l) j = l[j] := by
  induction l generalizing j with
  | nil => cases hj
  | cons b l ih =>
    cases j with
    | zero => simp
    | succ j => simpa using ih j (by simpa using hj)

/-- A number that fits the format encodes the block of its 8 bytes. -/
theorem tableEncoding_bytesNumber (blk : Block) {nbits : Nat} (hn : nbits = 8 ∨ nbits = 64)
    (hlt : bytesNumber blk.toList < 2 ^ nbits) : tableEncoding nbits (bytesNumber blk.toList) = .ok (.block blk) := by
  have hbyte (j : Nat) (hj : j < 8) : byteOfNat (bytesNumber blk.toList) j = blk[j] :=
    byteOfNat_bytesNumber blk.toList j (by simpa using hj)
  have hcmd : ¬(nbits = 12 ∨ nbits = 16) := by omega
  rw [tableEncoding, if_neg hcmd, if_pos hn, if_pos hlt]
  congr 2
  ext j hj : 1
  interval_cases j <;> exact hbyte _ _

theorem tableEncoding_block (blk : Block) : tableEncoding 64 (bytesNumber blk.toList) = .ok (.block blk) :=
  tableEncoding_bytesNumber blk (.inr rfl) (by simpa using bytesNumber_lt blk.toList)

/-- A header alone is the number of the block whose 7 payload bytes are zero. -/
theorem tableEncoding_header (h : Byte) :
    tableEncoding 8 h.toNat = .ok (.block (blockOf h (Vector.replicate 7 0))) := by
  have hnum : bytesNumber (blockOf h (Vector.replicate 7 0)).toList = h.toNat := by simp [blockOf]
  rw [← hnum]
  exact tableEncoding_bytesNumber _ (.inl rfl) (hnum.symm ▸ h.isLt)

/-- Settles O19: the two ways to place an encoding, and the three ways the table numbers one. -/
theorem fetchedEncodingIsWhatRuns : Obligations.FetchedEncodingIsWhatRuns :=
  ⟨step_withFetched_command, step_withFetched_block_agrees, fun _ _ _ s h => withFetchWord_of_tableEncoding s h,
    tableEncoding_command, tableEncoding_block, tableEncoding_header⟩

end Sys2Proof.Machine

/-! PROOFS. The assembler reads back the text of every command (30_encoding.md R63). -/

namespace Sys2Proof.Machine

open Sys2Proof

/-! ### Scanning -/

/-- A character that the scanner takes into a word: no comment mark, blank, comma, double quote (0x22) or quote. -/
def inWord (c : Char) : Bool :=
  !(c == ';') && !(c == ' ' || c == '\t') && !(c == ',') && !(c == Char.ofNat 0x22) && !(c == '\'')

/-- Text that the scanner reads as one word. -/
def isWord (m : List Char) : Bool := !m.isEmpty && m.all inWord

theorem isWord_iff (m : List Char) : isWord m = true ↔ m ≠ [] ∧ m.all inWord = true := by
  simp [isWord]

theorem scan_inWord {c : Char} (hc : inWord c = true) (cs w : List Char) :
    scan (c :: cs) w none = scan cs (c :: w) none := by
  simp only [inWord, Bool.and_eq_true, Bool.not_eq_true'] at hc
  obtain ⟨⟨⟨⟨hsemi, hblank⟩, hcomma⟩, hquote⟩, hchar⟩ := hc
  rw [scan.eq_def]
  simp only [hsemi, hblank, hcomma, hquote, hchar]
  rfl

/-- The scanner adds a run of such characters to the word it is reading. -/
theorem scan_run {m : List Char} (hm : m.all inWord = true) (cs w : List Char) :
    scan (m ++ cs) w none = scan cs (m.reverse ++ w) none := by
  induction m generalizing w with
  | nil => rfl
  | cons c m ih =>
    rw [List.all_cons, Bool.and_eq_true] at hm
    obtain ⟨hc, hrest⟩ := hm
    rw [List.cons_append, scan_inWord hc, ih hrest]
    simp

theorem flushWord_reverse {m : List Char} (hne : m ≠ []) (ts : List Token) :
    flushWord m.reverse ts = .word m :: ts := by
  simp [flushWord, hne]

theorem scan_word {m : List Char} (hm : isWord m = true) : scan m [] none = some [.word m] := by
  obtain ⟨hne, hall⟩ := (isWord_iff m).mp hm
  have hrun := scan_run hall [] []
  rw [List.append_nil, List.append_nil] at hrun
  rw [hrun, scan, flushWord_reverse hne]

theorem scan_word_blank {m : List Char} (hm : isWord m = true) (cs : List Char) :
    scan (m ++ ' ' :: cs) [] none = (scan cs [] none).map (.word m :: ·) := by
  obtain ⟨hne, hall⟩ := (isWord_iff m).mp hm
  rw [scan_run hall, List.append_nil, scan.eq_def]
  exact congrArg (Option.map · (scan cs [] none)) (funext (flushWord_reverse hne))

/-! ### Lines of one word, and of a word and an operand -/

theorem assembleLine_word {m : List Char} (hm : isWord m = true) :
    assembleLine m = assembleForm (m.map Char.toUpper) [] := by
  simp only [assembleLine, scan_word hm]

theorem assembleLine_word_operand {m a : List Char} (hm : isWord m = true) (ha : isWord a = true) :
    assembleLine (m ++ ' ' :: a) = assembleForm (m.map Char.toUpper) [.word a] := by
  simp only [assembleLine, scan_word_blank hm, scan_word ha, Option.map_some]

/-! ### Hexadecimal operands -/

theorem inWord_hexDigit (v : BitVec 4) : inWord (hexDigit v) = true := by
  revert v; decide

theorem digitValue_hexDigit (v : BitVec 4) : digitValue 16 (hexDigit v) = some v.toNat := by
  revert v; decide

/-- A byte is its two hexadecimal digits. -/
theorem byte_toNat_digits (b : Byte) : (b.extractLsb' 4 4).toNat * 16 + (b.extractLsb' 0 4).toNat = b.toNat := by
  have := b.isLt
  simp only [BitVec.extractLsb'_toNat, Nat.shiftRight_eq_div_pow]
  omega

theorem isWord_hexNumber {ds : List Char} (h : ds.all inWord = true) : isWord ('0' :: 'x' :: ds) = true := h

theorem isWord_hexByte (b : Byte) : isWord (hexByte b) = true :=
  isWord_hexNumber (by simp [inWord_hexDigit])

theorem imm8_hexByte (b : Byte) : imm8 (hexByte b) = some b := by
  simp only [hexByte, imm8, digitsValue, digitValue_hexDigit, Option.map_some, Nat.zero_mul, Nat.zero_add,
    byte_toNat_digits, BitVec.ofNat_toNat, BitVec.setWidth_eq]

theorem oneByte_hexByte (op : BitVec 4) (b : Byte) : oneByte op [.word (hexByte b)] = some [cmdWord op b] := by
  simp [oneByte, operandBytes, imm8_hexByte]

/-- `0xHHH`, the word with `OP = op` and `DATA = d`. -/
def hexWord (op : BitVec 4) (d : Byte) : List Char :=
  ['0', 'x', hexDigit op, hexDigit (d.extractLsb' 4 4), hexDigit (d.extractLsb' 0 4)]

theorem isWord_hexWord (op : BitVec 4) (d : Byte) : isWord (hexWord op d) = true :=
  isWord_hexNumber (by simp [inWord_hexDigit])

theorem cmdWord_toNat (op : BitVec 4) (d : Byte) : (cmdWord op d).toNat = op.toNat * 256 + d.toNat := by
  rw [cmdWord, BitVec.toNat_append, ← Nat.shiftLeft_add_eq_or_of_lt d.isLt, Nat.shiftLeft_eq]

theorem digitsValue_hexWord (op : BitVec 4) (d : Byte) :
    digitsValue 16 [hexDigit op, hexDigit (d.extractLsb' 4 4), hexDigit (d.extractLsb' 0 4)] 0 =
      some (cmdWord op d).toNat := by
  simp only [digitsValue, digitValue_hexDigit, Option.map_some, cmdWord_toNat, ← byte_toNat_digits d]
  congr 1
  omega

/-- A word is accepted raw exactly where it is reserved: from 0x800 on. -/
theorem rawWord_hexWord {op : BitVec 4} (d : Byte) (h : 8 ≤ op.toNat) :
    rawWord [.word (hexWord op d)] = some [cmdWord op d] := by
  have hres : 0x800 ≤ (cmdWord op d).toNat := by
    rw [cmdWord_toNat]
    omega
  simp only [hexWord, rawWord, digitsValue_hexWord, if_pos hres, BitVec.ofNat_toNat, BitVec.setWidth_eq]

/-! ### Every command's line -/

theorem assembleLine_eData (b : Byte) :
    assembleLine (['E', '.', 'D', 'A', 'T', 'A'] ++ ' ' :: hexByte b) = some [cmdWord 0x2 b] :=
  (assembleLine_word_operand rfl (isWord_hexByte b)).trans (oneByte_hexByte 0x2 b)

theorem assembleLine_dData (b : Byte) :
    assembleLine (['D', '.', 'D', 'A', 'T', 'A'] ++ ' ' :: hexByte b) = some [cmdWord 0x6 b] :=
  (assembleLine_word_operand rfl (isWord_hexByte b)).trans (oneByte_hexByte 0x6 b)

theorem assembleLine_reserved {op : BitVec 4} (d : Byte) (h : 8 ≤ op.toNat) :
    assembleLine (['.', 'w', 'o', 'r', 'd'] ++ ' ' :: hexWord op d) = some [cmdWord op d] :=
  (assembleLine_word_operand rfl (isWord_hexWord op d)).trans (rawWord_hexWord d h)

/-- Settles O7: a line is a mnemonic alone, a mnemonic and a byte, or `.word` and a reserved word. -/
theorem assemblerInvertsItsText : Obligations.AssemblerInvertsItsText := by
  intro i w hwf henc
  cases i with
  | nop | eReset | eEnd | gReset | dReset | dEnd => cases henc; exact ⟨_, rfl, assembleLine_word rfl⟩
  | eData b => cases henc; exact ⟨_, rfl, assembleLine_eData b⟩
  | dData b => cases henc; exact ⟨_, rfl, assembleLine_dData b⟩
  | reserved op d => cases henc; exact ⟨_, rfl, assembleLine_reserved d (of_decide_eq_true hwf)⟩
  | blkData _ _ | blkDataS _ _ | blkFinal _ _ _ | blkFinalS _ _ _ => cases henc

end Sys2Proof.Machine

/-! PROOFS. The statements of 40_datapath.md: parity and where it lands, the header fields, the formed block, and what
the shift unit keeps. -/

namespace Sys2Proof.Machine

open Sys2Proof

/-! ### Parity of a byte (R67) -/

/-- A count is odd exactly when the XOR of what is counted is true. -/
theorem countP_odd_eq_foldr_xor {α : Type} (p : α → Bool) (l : List α) :
    (l.countP p % 2 == 1) = l.foldr (fun a acc => p a ^^ acc) false := by
  induction l with
  | nil => rfl
  | cons a l ih =>
    rw [List.foldr_cons, ← ih, List.countP_cons]
    rcases Nat.mod_two_eq_zero_or_one (l.countP p) with h | h <;> cases p a <;> simp [Nat.add_mod, h]

/-- Settles O8: parity counts bits modulo 2, which is their XOR. -/
theorem parityIsXorOfBits : Obligations.ParityIsXorOfBits := by
  intro b
  rw [par, popcount, countP_odd_eq_foldr_xor]
  simp [List.range_succ, Bool.xor_comm]

/-! ### The parity value (R69) -/

theorem rawParity_getLsbD_place (o : ParityOrder) (ch : Chunk) {i : Nat} (hi : i < 6) :
    (rawParity o ch).getLsbD (parityPlace o i) = par ch[i] := by
  cases o <;> interval_cases i <;> simp [rawParity, parityPlace]

/-- Byte 6 inverts the six bits as a group. -/
theorem parityValue_getLsbD (o : ParityOrder) (ch : Chunk) {k : Nat} (hk : k < 6) :
    (parityValue o ch).getLsbD k = ((rawParity o ch).getLsbD k ^^ par ch[6]) := by
  have hmask : (0x3F#6).getLsbD k = true := by
    interval_cases k <;> rfl
  unfold parityValue
  cases par ch[6] <;> simp [hmask, hk]

theorem parityPlace_lt (o : ParityOrder) {i : Nat} (hi : i < 6) : parityPlace o i < 6 := by
  cases o <;> simp only [parityPlace] <;> omega

theorem parityValue_getLsbD_place (o : ParityOrder) (ch : Chunk) {i : Nat} (hi : i < 6) :
    (parityValue o ch).getLsbD (parityPlace o i) = (par ch[i] ^^ par ch[6]) := by
  rw [parityValue_getLsbD o ch (parityPlace_lt o hi), rawParity_getLsbD_place o ch hi]

/-- Settles O9: byte `i`'s place is bit `5 - i` under one order and bit `i` under the other. -/
theorem parityBitsLandByOrder : Obligations.ParityBitsLandByOrder := fun ch _ hi =>
  ⟨parityValue_getLsbD_place .msbFirst ch hi, parityValue_getLsbD_place .lsbFirst ch hi⟩

/-- The parity value reads nothing of a lane but its parity. -/
theorem parityValue_congr (o : ParityOrder) {a b : Chunk} (h : ∀ (j : Nat) (hj : j < 7), par a[j] = par b[j]) :
    parityValue o a = parityValue o b := by
  have hraw : rawParity o a = rawParity o b := by simp [rawParity, h]
  rw [parityValue, parityValue, hraw, h]

/-! ### Headers (R74, R75) -/

/-- Settles O10: both headers are the layout of their fields. -/
theorem headerFieldsAreAsLaidOut : Obligations.HeaderFieldsAreAsLaidOut := by
  intro o ch s n
  rw [headerBase_eq_hdrData, headerFinal_eq_hdrFinal]
  exact ⟨⟨hdrS_hdrData _ _, hdrE_hdrData _ _, hdrPv_hdrData _ _⟩,
    hdrS_hdrFinal _ _ _, hdrE_hdrFinal _ _ _, hdrLen_hdrFinal _ _ _, hdrPvHi_hdrFinal _ _ _⟩

/-! ### The formed block (R76) -/

theorem blockOf_payload_getElem (h : Byte) (q : Chunk) (j : Nat) (hj : j < 7) : (blockOf h q)[1 + j] = q[j] := by
  interval_cases j <;> rfl

/-- The shift flag of a padded chunk, from the real bytes of the buffer (R71). -/
theorem shiftable_pad7_iff_real (buf : Chunk) (n : BitVec 3) :
    shiftable (pad7 buf n) n = true ↔ ∀ (k : Nat) (hk : k < 7), k < n.toNat → buf[k] ≤ 0x7F#8 := by
  rw [shiftable_iff]
  refine forall_congr' fun k => forall_congr' fun hk => forall_congr' fun hn => ?_
  rw [pad7_getElem, if_pos hn]

/-- Settles O11: the payload is the shifted padded chunk, lane by lane. -/
theorem formedBlockLayout : Obligations.FormedBlockLayout := by
  intro o buf n f
  refine ⟨formBlock_header o buf n f, fun j hj => ?_⟩
  have hlane : (formBlock o buf n f)[1 + j] = (shiftLanes (pad7 buf n) (shiftable (pad7 buf n) n))[j] :=
    blockOf_payload_getElem _ _ j hj
  rw [hlane, shiftLanes_getElem, pad7_getElem]
  simp only [shiftable_pad7_iff_real]
  by_cases hn : j < n.toNat
  · simp only [if_pos hn]
  · simp [hn]

/-! ### The shift unit (R72, R73) -/

@[simp] theorem shiftLanes_false (ch : Chunk) : shiftLanes ch false = ch := by
  ext j hj : 1
  simp [shiftLanes_getElem]

/-- A byte up to 0x7F has a clear top bit, so shifting left loses none of its 1 bits. -/
theorem par_shiftLeft_one {x : Byte} (hx : x ≤ 0x7F#8) : par (x <<< 1) = par x := by
  have htop : x[7] = false := Nat.testBit_lt_two_pow (by bv_omega)
  rw [parityIsXorOfBits, parityIsXorOfBits]
  simp [htop]

theorem shiftLeft_one_shiftRight_one {x : Byte} (hx : x ≤ 0x7F#8) : x <<< 1 >>> 1 = x := by
  bv_omega

/-- Settles O12: each lane that the shifter moves keeps its parity, and `PV` reads nothing else of a lane. -/
theorem shiftKeepsParity : Obligations.ShiftKeepsParity := by
  refine ⟨fun x => par_shiftLeft_one, fun o buf n => ?_⟩
  cases hs : shiftable (pad7 buf n) n with
  | false => rw [shiftLanes_false]
  | true =>
    refine parityValue_congr o fun j hj => ?_
    rw [shiftLanes_getElem, if_pos rfl]
    exact par_shiftLeft_one ((shiftable_pad7 buf n).mp hs j hj)

/-- Settles O13: a byte shifted left is even; a chunk that is not shifted has a real byte that forbids it. -/
theorem shiftFlagTellsStoredBytes : Obligations.ShiftFlagTellsStoredBytes := by
  rintro buf n q rfl
  constructor
  · intro hs j hj
    rw [hs, shiftLanes_getElem, if_pos rfl]
    exact ⟨by simp, by bv_omega⟩
  · intro hs
    rw [hs, shiftLanes_false]
    refine ⟨rfl, ?_⟩
    have hbig : ¬ ∀ (k : Nat) (hk : k < 7), k < n.toNat → buf[k] ≤ 0x7F#8 := by
      rw [← shiftable_pad7_iff_real, hs]
      exact Bool.false_ne_true
    push Not at hbig
    obtain ⟨j, hj, hn, hlt⟩ := hbig
    exact ⟨j, hj, hn, by bv_omega⟩

/-! ### The round trip (R80) -/

theorem unshiftLanes_shiftLanes_pad7 (buf : Chunk) (n : BitVec 3) :
    unshiftLanes (shiftLanes (pad7 buf n) (shiftable (pad7 buf n) n)) (shiftable (pad7 buf n) n) = pad7 buf n := by
  cases hs : shiftable (pad7 buf n) n with
  | false => rw [shiftLanes_false, unshiftLanes_false]
  | true =>
    ext j hj : 1
    rw [unshiftLanes_getElem, if_pos rfl, shiftLanes_getElem, if_pos rfl]
    exact shiftLeft_one_shiftRight_one ((shiftable_pad7 buf n).mp hs j hj)

/-- Padding keeps the real bytes. -/
theorem pad7_toList_take (buf : Chunk) (n : BitVec 3) :
    (pad7 buf n).toList.take n.toNat = buf.toList.take n.toNat := by
  apply List.ext_getElem
  · simp
  · intro j hj _
    simp only [List.length_take] at hj
    have hn : j < n.toNat := by omega
    simp [pad7, hn]

theorem splitBlock_formBlock_final (o : ParityOrder) (buf : Chunk) (n : BitVec 3) :
    splitBlock (formBlock o buf n true) = (true, buf.toList.take n.toNat) := by
  rw [splitBlock_final _ (formBlock_hdrE o buf n true), formBlock_payload, formBlock_hdrS, formBlock_hdrLen,
    unshiftLanes_shiftLanes_pad7, pad7_toList_take]

theorem splitBlock_formBlock_full (o : ParityOrder) (buf : Chunk) :
    splitBlock (formBlock o buf 7 false) = (false, buf.toList) := by
  rw [splitBlock_data _ (formBlock_hdrE o buf 7 false), formBlock_payload, formBlock_hdrS,
    unshiftLanes_shiftLanes_pad7, pad7_full]

/-- Settles O14: the header carries the shift flag, the end flag and `LEN`, and unshifting undoes the shift. -/
theorem blockRoundTrip : Obligations.BlockRoundTrip :=
  ⟨unshiftLanes_shiftLanes_pad7, fun o buf n _ => splitBlock_formBlock_final o buf n, splitBlock_formBlock_full⟩

end Sys2Proof.Machine

/-! PROOFS. The statements of 41_encoder.md: what each encoder command does, and that the commands of a stream leave the
source's framing of it, which has one end marker and decodes to the stream. -/

namespace Sys2Proof.Machine

open Sys2Proof

/-! ### The encoder commands (R81 to R84) -/

/-- Settles O30: every instruction goes on to `after`, where the encoder's instructions keep the decoder. -/
theorem encoderCommandsKeepDecoder : Obligations.EncoderCommandsKeepDecoder := by
  intro i s hu
  exact ⟨after i s, exec_eq_after i s, after_keeps_decoder_of_encoder hu s⟩

theorem encView_eq_mk_iff {s : State} {cnt : BitVec 3} {bytes out : List Byte} :
    s.encView = ⟨cnt, bytes, out⟩ ↔ s.encCnt = cnt ∧ s.encBytes = bytes ∧ s.encOut = out := by
  simp only [State.encView, EncView.mk.injEq]

/-- `E.RESET` of an encoder with no open chunk changes nothing (R82). -/
theorem after_eReset_of_no_chunk {s : State} (h : s.encCnt = 0) : after .eReset s = s := if_pos h

/-- Settles O27: the view after `E.RESET` has no open chunk and the old output. -/
theorem encoderResetResult : Obligations.EncoderResetResult := by
  refine ⟨decodeCommand_eReset, rfl, fun s => ?_⟩
  obtain ⟨hcnt, -, hout⟩ := encView_eq_mk_iff.mp (after_eReset_encView s)
  obtain ⟨hdec, herr⟩ := after_keeps_decoder_of_encoder (i := .eReset) rfl s
  exact ⟨after .eReset s, exec_eq_after _ s, hcnt, hout, hdec, herr, after_eReset_of_no_chunk⟩

/-- Settles O28: the two cases are those of the encoder's view after `E.DATA`. -/
theorem encoderDataResult : Obligations.EncoderDataResult := by
  refine ⟨fun b => ⟨decodeCommand_eData b, rfl⟩, fun b s => ?_⟩
  obtain ⟨hdec, herr⟩ := after_keeps_decoder_of_encoder (i := .eData b) rfl s
  have hview : (after (.eData b) s).encView = _ := eDataStep_encView Config.parityOrder b s
  refine ⟨after (.eData b) s, exec_eq_after _ s, ?_⟩
  by_cases hfull : s.encCnt = 7
  · rw [if_pos hfull, encView_eq_mk_iff] at hview
    obtain ⟨hcnt, hbytes, hout⟩ := hview
    simp only [if_pos hfull]
    exact ⟨hcnt, hbytes, hfull ▸ hout, hdec, herr⟩
  · rw [if_neg hfull, encView_eq_mk_iff] at hview
    obtain ⟨hcnt, hbytes, hout⟩ := hview
    simp only [if_neg hfull]
    exact ⟨hcnt, hbytes, hout, hdec, herr⟩

/-- Settles O29: the view after `E.END` has no open chunk, and the final block of one that was open. -/
theorem encoderEndResult : Obligations.EncoderEndResult := by
  refine ⟨decodeCommand_eEnd, rfl, fun s => ?_⟩
  obtain ⟨hcnt, -, hout⟩ := encView_eq_mk_iff.mp (eEndStep_encView Config.parityOrder s)
  exact ⟨after .eEnd s, exec_eq_after _ s, hcnt, hout, after_keeps_decoder_of_encoder (i := .eEnd) rfl s⟩

/-! ### Runs of encoder commands -/

@[refl] theorem SameDecoder.refl (s : State) : SameDecoder s s := ⟨rfl, rfl, rfl, rfl, rfl, rfl⟩

theorem SameDecoder.trans {s t u : State} (h : SameDecoder s t) (h' : SameDecoder t u) : SameDecoder s u :=
  ⟨h'.buf.trans h.buf, h'.cnt.trans h.cnt, h'.done.trans h.done, h'.seen.trans h.seen, h'.result.trans h.result,
    h'.out.trans h.out⟩

/-- Encoder commands one after another keep the decoder and `CMD_ERR` (R81). -/
theorem afterWords_keeps_decoder_of_encoder {ws : List CmdWord} (hws : ∀ w ∈ ws, (decodeCommand w).unit = .encoder)
    (s : State) : SameDecoder s (afterWords ws s) ∧ (afterWords ws s).cmdErr = s.cmdErr := by
  induction ws generalizing s with
  | nil => exact ⟨.refl s, rfl⟩
  | cons w ws ih =>
    rw [List.forall_mem_cons] at hws
    obtain ⟨hw, hrest⟩ := hws
    obtain ⟨hdec, herr⟩ := after_keeps_decoder_of_encoder hw s
    obtain ⟨hdecs, herrs⟩ := ih hrest (after (decodeCommand w) s)
    exact ⟨hdec.trans hdecs, herrs.trans herr⟩

theorem eStream_unit (b : List Byte) : ∀ w ∈ eStream b, (decodeCommand w).unit = .encoder := by
  simp [eStream, eBytes, or_imp, forall_and, Instr.unit]

@[simp] theorem afterWords_eStream_nil (s : State) :
    afterWords (eStream []) s = eEndStep Config.parityOrder s := by
  simp [eStream, eBytes, after]

@[simp] theorem afterWords_eStream_cons (x : Byte) (b : List Byte) (s : State) :
    afterWords (eStream (x :: b)) s = afterWords (eStream b) (eDataStep Config.parityOrder x s) := by
  simp [eStream, eBytes, after]

/-! ### The source's blocks, chunk by chunk (R85) -/

theorem chunkAt_getElem (b : List Byte) (k j : Nat) (hj : j < 7) : (chunkAt b k)[j] = b.getD (7 * k + j) 0x00 := by
  simp [chunkAt]

/-- The first chunk of a stream that fits into one holds the stream. -/
theorem chunkAt_zero_take {b : List Byte} (hb : b.length ≤ 7) : (chunkAt b 0).toList.take b.length = b := by
  apply List.ext_getElem
  · simpa using hb
  · intro j _ hj
    simp [chunkAt, hj]

theorem chunkAt_append_zero {c : List Byte} (hc : c.length = 7) (rest : List Byte) :
    chunkAt (c ++ rest) 0 = chunkAt c 0 := by
  ext j hj : 1
  simp only [chunkAt_getElem]
  exact List.getD_append _ _ _ _ (by omega)

theorem chunkAt_append_succ {c : List Byte} (hc : c.length = 7) (rest : List Byte) (k : Nat) :
    chunkAt (c ++ rest) (k + 1) = chunkAt rest k := by
  ext j hj : 1
  simp only [chunkAt_getElem]
  rw [List.getD_append_right _ _ _ _ (by omega)]
  congr 1
  omega

theorem blockCount_pos {b : List Byte} (hb : b ≠ []) : 0 < blockCount b := by
  have := List.length_pos_iff.mpr hb
  unfold blockCount
  omega

theorem blockCount_append {c : List Byte} (hc : c.length = 7) (rest : List Byte) :
    blockCount (c ++ rest) = blockCount rest + 1 := by
  simp only [blockCount, List.length_append]
  omega

/-- A stream that fits into one chunk is one final block. -/
theorem sourceBlocks_single (o : ParityOrder) {b : List Byte} (hne : b ≠ []) (hb : b.length ≤ 7) :
    sourceBlocks o b = [formBlock o (chunkAt b 0) (BitVec.ofNat 3 b.length) true] := by
  have hpos := blockCount_pos hne
  have hcount : blockCount b = 1 := by
    unfold blockCount at hpos ⊢
    omega
  simp [sourceBlocks, sourceBlock, hcount]

/-- A full chunk that the stream goes on after is a non-final block before the blocks of the rest. -/
theorem sourceBlocks_append (o : ParityOrder) {c rest : List Byte} (hc : c.length = 7) (hrest : rest ≠ []) :
    sourceBlocks o (c ++ rest) = formBlock o (chunkAt c 0) 7 false :: sourceBlocks o rest := by
  have hpos := blockCount_pos hrest
  have hfirst : sourceBlock o (c ++ rest) 0 = formBlock o (chunkAt c 0) 7 false := by
    rw [sourceBlock, blockCount_append hc, if_neg (by omega), chunkAt_append_zero hc]
  have hlater (k : Nat) : sourceBlock o (c ++ rest) (k + 1) = sourceBlock o rest k := by
    have hleft : (c ++ rest).length - 7 * (k + 1) = rest.length - 7 * k := by
      rw [List.length_append]
      omega
    simp only [sourceBlock, blockCount_append hc, chunkAt_append_succ hc, hleft, Nat.add_right_cancel_iff]
  simp [sourceBlocks, blockCount_append hc, List.range_succ_eq_map, hfirst, hlater, Function.comp_def]

@[simp] theorem sourceEncode_nil (o : ParityOrder) : sourceEncode o [] = [] := rfl

theorem sourceEncode_single (o : ParityOrder) {b : List Byte} (hne : b ≠ []) (hb : b.length ≤ 7) :
    sourceEncode o b = (formBlock o (chunkAt b 0) (BitVec.ofNat 3 b.length) true).toList := by
  simp [sourceEncode, sourceBlocks_single o hne hb]

theorem sourceEncode_append (o : ParityOrder) {c rest : List Byte} (hc : c.length = 7) (hrest : rest ≠ []) :
    sourceEncode o (c ++ rest) = (formBlock o (chunkAt c 0) 7 false).toList ++ sourceEncode o rest := by
  simp [sourceEncode, sourceBlocks_append o hc hrest]

theorem sourceEncode_length (o : ParityOrder) (b : List Byte) : (sourceEncode o b).length = 8 * blockCount b := by
  simp [sourceEncode, sourceBlocks, List.length_flatMap, Function.comp_def, Nat.mul_comm]

theorem sourceEncode_ne_nil (o : ParityOrder) {b : List Byte} (hb : b ≠ []) : sourceEncode o b ≠ [] := by
  have hpos := blockCount_pos hb
  rw [← List.length_pos_iff, sourceEncode_length]
  omega

/-! ### The commands of a stream (R85, R87) -/

/-- The block formed of the open chunk is the source's for the bytes that have a defined value (R17, R70). -/
theorem formBlock_chunkAt_encBytes (o : ParityOrder) (f : Bool) (s : State) :
    formBlock o (chunkAt s.encBytes 0) s.encCnt f = formBlock o s.encBuf s.encCnt f := by
  have hlen := s.encBytes_length
  have hfits : s.encBytes.length ≤ 7 := by omega
  apply formBlock_congr
  rw [← hlen, chunkAt_zero_take hfits, hlen]
  rfl

theorem encBytes_ne_nil_iff {s : State} : s.encBytes ≠ [] ↔ s.encCnt ≠ 0 := by
  rw [← List.length_pos_iff, s.encBytes_length, ← BitVec.toNat_ne_iff_ne]
  exact Nat.pos_iff_ne_zero

theorem encBytes_eq_nil_iff {s : State} : s.encBytes = [] ↔ s.encCnt = 0 := not_iff_not.mp encBytes_ne_nil_iff

/-- `E.END` leaves what the source makes of the bytes held. -/
theorem eEndStep_encView_eq_source (o : ParityOrder) (s : State) :
    (eEndStep o s).encView = ⟨0, [], s.encOut ++ sourceEncode o s.encBytes⟩ := by
  rw [eEndStep_encView]
  by_cases hcnt : s.encCnt = 0
  · rw [if_pos hcnt, encBytes_eq_nil_iff.mpr hcnt, sourceEncode_nil, List.append_nil]
  · have hlen := s.encBytes_length
    rw [if_neg hcnt, sourceEncode_single o (encBytes_ne_nil_iff.mpr hcnt) (by omega), hlen, BitVec.ofNat_toNat,
      BitVec.setWidth_eq, formBlock_chunkAt_encBytes]

/-- `E.DATA` does not change what the source makes of the bytes held and the bytes to come: it takes one from these to
those, or emits the source's next block. -/
theorem eDataStep_keeps_source (o : ParityOrder) (x : Byte) (b : List Byte) (s : State) :
    (eDataStep o x s).encOut ++ sourceEncode o ((eDataStep o x s).encBytes ++ b) =
      s.encOut ++ sourceEncode o (s.encBytes ++ x :: b) := by
  have hview := eDataStep_encView o x s
  by_cases hfull : s.encCnt = 7
  · rw [if_pos hfull, encView_eq_mk_iff] at hview
    obtain ⟨-, hbytes, hout⟩ := hview
    have hseven : s.encBytes.length = 7 := by rw [s.encBytes_length, hfull]; rfl
    rw [hbytes, hout, sourceEncode_append o hseven (List.cons_ne_nil x b), ← formBlock_chunkAt_encBytes, hfull]
    simp
  · rw [if_neg hfull, encView_eq_mk_iff] at hview
    obtain ⟨-, hbytes, hout⟩ := hview
    rw [hbytes, hout, List.append_assoc, List.singleton_append]

/-- From any state, the commands of a stream leave the source's framing of the bytes already held and the stream's. -/
theorem afterWords_eStream_encView (b : List Byte) (s : State) :
    (afterWords (eStream b) s).encView = ⟨0, [], s.encOut ++ sourceEncode Config.parityOrder (s.encBytes ++ b)⟩ := by
  induction b generalizing s with
  | nil => rw [afterWords_eStream_nil, eEndStep_encView_eq_source, List.append_nil]
  | cons x b ih => rw [afterWords_eStream_cons, ih, eDataStep_keeps_source]

/-- With no open chunk, the stream's own framing is what its commands add. -/
theorem afterWords_eStream_of_no_chunk (b : List Byte) {s : State} (hcnt : s.encCnt = 0) :
    (afterWords (eStream b) s).encCnt = 0 ∧
      (afterWords (eStream b) s).encOut = s.encOut ++ sourceEncode Config.parityOrder b := by
  have hview := afterWords_eStream_encView b s
  rw [encBytes_eq_nil_iff.mpr hcnt, List.nil_append, encView_eq_mk_iff] at hview
  obtain ⟨hcnt', -, hout⟩ := hview
  exact ⟨hcnt', hout⟩

/-- The last block holds what the full blocks before it leave (R85). -/
theorem last_block_length {b : List Byte} (hb : b ≠ []) :
    b.length - 7 * (blockCount b - 1) = (b.length - 1) % 7 + 1 := by
  have := List.length_pos_iff.mpr hb
  unfold blockCount
  omega

/-- Settles O49: the view after the stream's commands is the source's framing, and they are all the encoder's. -/
theorem encoderMeetsSource : Obligations.EncoderMeetsSource := by
  refine ⟨fun b s hcnt => ?_, sourceEncode_length, fun b => last_block_length⟩
  obtain ⟨hcnt', hout⟩ := afterWords_eStream_of_no_chunk b hcnt
  exact ⟨afterWords (eStream b) s, runWords_eq _ s, hout, hcnt',
    afterWords_keeps_decoder_of_encoder (eStream_unit b) s⟩

theorem afterWords_eStreams (bs : List (List Byte)) {s : State} (hcnt : s.encCnt = 0) :
    (afterWords (bs.flatMap eStream) s).encCnt = 0 ∧
      (afterWords (bs.flatMap eStream) s).encOut = s.encOut ++ bs.flatMap (sourceEncode Config.parityOrder) := by
  induction bs generalizing s with
  | nil => simpa using hcnt
  | cons b bs ih =>
    obtain ⟨hcnt', hout⟩ := afterWords_eStream_of_no_chunk b hcnt
    rw [List.flatMap_cons, afterWords_append, List.flatMap_cons, ← List.append_assoc, ← hout]
    exact ih hcnt'

/-- Settles O51: each stream ends with `ENC_CNT = 0`, where the next one starts. -/
theorem streamsEncodeIndependently : Obligations.StreamsEncodeIndependently := by
  intro bs s hcnt
  exact ⟨afterWords (bs.flatMap eStream) s, runWords_eq _ s, afterWords_eStreams bs hcnt⟩

/-! ### What the blocks of a stream carry (R86, R88) -/

/-- A non-empty stream is a last chunk of 1 to 7 bytes, or a full chunk before a non-empty stream. -/
theorem stream_induction {motive : (b : List Byte) → b ≠ [] → Prop}
    (last : ∀ b hne, b.length ≤ 7 → motive b hne)
    (chunk : ∀ c rest (hrest : rest ≠ []) (_ : c.length = 7), motive rest hrest →
      motive (c ++ rest) (List.append_ne_nil_of_right_ne_nil c hrest))
    (b : List Byte) (hne : b ≠ []) : motive b hne := by
  induction hn : b.length using Nat.strong_induction_on generalizing b with
  | _ n ih =>
    by_cases hb : b.length ≤ 7
    · exact last b hne hb
    · have hrest : b.drop 7 ≠ [] := by
        rw [← List.length_pos_iff, List.length_drop]
        omega
      have hlt : (b.drop 7).length < n := by
        rw [List.length_drop]
        omega
      have hsplit := chunk (b.take 7) (b.drop 7) hrest (by rw [List.length_take]; omega) (ih _ hlt _ hrest rfl)
      simpa only [List.take_append_drop] using hsplit

/-- The blocks `front ++ [last]` carry `b` as R86 says: 7 bytes in each before the last, which alone has its end bit
set and carries 1 to 7. -/
structure CarriedBy (b : List Byte) (front : List Block) (last : Block) : Prop where
  last_end : hdrE last[0] = true
  front_full : ∀ blk ∈ front, hdrE blk[0] = false ∧ (splitBlock blk).2.length = 7
  bytes : b = front.flatMap (fun blk => (splitBlock blk).2) ++ (splitBlock last).2
  last_pos : 1 ≤ (splitBlock last).2.length
  last_le : (splitBlock last).2.length ≤ 7

/-- A final block carries the chunk it was formed of. -/
theorem splitBlock_last (o : ParityOrder) {b : List Byte} (hb : b.length ≤ 7) :
    splitBlock (formBlock o (chunkAt b 0) (BitVec.ofNat 3 b.length) true) = (true, b) := by
  have hlen : (BitVec.ofNat 3 b.length).toNat = b.length := by
    rw [BitVec.toNat_ofNat]
    omega
  rw [splitBlock_formBlock_final, hlen, chunkAt_zero_take hb]

/-- A non-final block carries the full chunk it was formed of. -/
theorem splitBlock_chunk (o : ParityOrder) {c : List Byte} (hc : c.length = 7) :
    splitBlock (formBlock o (chunkAt c 0) 7 false) = (false, c) := by
  have htake := chunkAt_zero_take hc.le
  rw [hc, List.take_of_length_le (by simp)] at htake
  rw [splitBlock_formBlock_full, htake]

theorem carriedBy_single (o : ParityOrder) {b : List Byte} (hne : b ≠ []) (hb : b.length ≤ 7) :
    CarriedBy b [] (formBlock o (chunkAt b 0) (BitVec.ofNat 3 b.length) true) where
  last_end := formBlock_hdrE ..
  front_full := by simp
  bytes := by simp [splitBlock_last o hb]
  last_pos := by rw [splitBlock_last o hb]; exact List.length_pos_iff.mpr hne
  last_le := by rwa [splitBlock_last o hb]

theorem CarriedBy.cons (o : ParityOrder) {c rest : List Byte} {front : List Block} {last : Block}
    (hc : c.length = 7) (h : CarriedBy rest front last) :
    CarriedBy (c ++ rest) (formBlock o (chunkAt c 0) 7 false :: front) last where
  last_end := h.last_end
  front_full := List.forall_mem_cons.mpr ⟨⟨formBlock_hdrE .., by rwa [splitBlock_chunk o hc]⟩, h.front_full⟩
  bytes := by rw [List.flatMap_cons, splitBlock_chunk o hc, List.append_assoc, ← h.bytes]
  last_pos := h.last_pos
  last_le := h.last_le

theorem sourceBlocks_carry (o : ParityOrder) (b : List Byte) (hne : b ≠ []) :
    ∃ front last, sourceBlocks o b = front ++ [last] ∧ CarriedBy b front last := by
  induction b, hne using stream_induction with
  | last b hne hb => exact ⟨[], _, sourceBlocks_single o hne hb, carriedBy_single o hne hb⟩
  | chunk c rest hrest hc ih =>
    obtain ⟨front, last, hblocks, hcarried⟩ := ih
    exact ⟨_ :: front, last, by rw [sourceBlocks_append o hc hrest, hblocks]; rfl, hcarried.cons o hc⟩

/-- Settles O50: the encoder's blocks are the source's, of which the last alone is formed as a final one. -/
theorem singleEndMarker : Obligations.SingleEndMarker := by
  intro b s hne hcnt
  obtain ⟨front, last, hblocks, hcarried⟩ := sourceBlocks_carry Config.parityOrder b hne
  obtain ⟨-, hout⟩ := afterWords_eStream_of_no_chunk b hcnt
  rw [sourceEncode, hblocks] at hout
  obtain ⟨hend, hfront, hbytes, hpos, hle⟩ := hcarried
  exact ⟨afterWords (eStream b) s, front, last, runWords_eq _ s, hout, hend, hfront, hbytes, hpos, hle⟩

/-! ### Decoding what was encoded (R88, R93, R121) -/

/-- The source's decoder splits the first block, and reads on unless it is final. -/
theorem decodeBlocks_block_append (blk : Block) (rest : List Byte) :
    decodeBlocks (blk.toList ++ rest) =
      if (splitBlock blk).1 then ((splitBlock blk).2, .ok)
      else ((splitBlock blk).2 ++ (decodeBlocks rest).1, (decodeBlocks rest).2) := by
  rw [← blockOf_fields blk]
  refine (decodeBlocks.eq_1 ..).trans ?_
  split
  all_goals
    next out hsplit =>
    change splitBlock (blockOf blk[0] (blockPayload blk)) = _ at hsplit
    rw [hsplit]
    rfl

/-- The source decodes its own framing, and reads nothing after the final block (R93). -/
theorem decodeBlocks_sourceEncode_append (o : ParityOrder) (b : List Byte) (hne : b ≠ []) (tail : List Byte) :
    decodeBlocks (sourceEncode o b ++ tail) = (b, .ok) := by
  induction b, hne using stream_induction with
  | last b hne hb => rw [sourceEncode_single o hne hb, decodeBlocks_block_append, splitBlock_last o hb, if_pos rfl]
  | chunk c rest hrest hc ih =>
    rw [sourceEncode_append o hc hrest, List.append_assoc, decodeBlocks_block_append, splitBlock_chunk o hc, ih,
      if_neg Bool.false_ne_true]

theorem hostPad_length_mod_three (extra : Nat) (out : List Byte) : (hostPad extra out).length % 3 = 0 := by
  simp only [hostPad, List.length_append, List.length_map, List.length_range]
  omega

/-- Settles O54: padding goes after the framed stream, where the decoder no longer reads; an empty stream has none. -/
theorem hostPaddedEncodingDecodes : Obligations.HostPaddedEncodingDecodes := by
  intro o b extra hextra
  refine ⟨hostPad_length_mod_three extra _, ?_⟩
  by_cases hb : b = []
  · subst hb
    simp [hextra rfl, hostPad, sourceDecode]
  · rw [if_neg hb, hostPad, sourceDecode, if_neg (List.append_ne_nil_of_left_ne_nil (sourceEncode_ne_nil o hb) _),
      decodeBlocks_sourceEncode_append o b hb]

end Sys2Proof.Machine

/-! PROOFS. The statements of 42_decoder.md: what each decoder command and block kind does, and that the commands of a
stream decode it as the source does, so that what the encoder emits decodes to what was encoded. -/

namespace Sys2Proof.Machine

open Sys2Proof

/-! ### The decoder stream as the source's decoder (R95, R107) -/

theorem decView_eq_mk_iff {s : State} {cnt : BitVec 3} {bytes : List Byte} {done seen : Bool} {result : DecResult}
    {out : List Byte} :
    s.decView = ⟨cnt, bytes, done, seen, result, out⟩ ↔
      s.decCnt = cnt ∧ s.decBytes = bytes ∧ s.decDone = done ∧ s.decSeen = seen ∧ s.decResult = result ∧
        s.decOut = out := by
  simp only [State.decView, DecView.mk.injEq]

/-- What the source's decoder makes of a stream of which the decoder at `v` has received a part and `x` is to come: all
of `DEC_OUT` at its end, and the outcome. `D.DATA` only moves bytes from `x` to `v`, and `D.END` finds `x` empty. -/
def DecView.finish (v : DecView) (x : List Byte) : List Byte × DecResult :=
  if v.done then (v.out, .ok)
  else if v.seen = false ∧ x = [] then (v.out, .okEmpty)
  else (v.out ++ (decodeBlocks (v.bytes ++ x)).1, (decodeBlocks (v.bytes ++ x)).2)

theorem DecView.finish_done {v : DecView} (h : v.done = true) (x : List Byte) : v.finish x = (v.out, .ok) := if_pos h

/-- Of an open stream that has a byte, the blocks are read. -/
theorem DecView.finish_open {v : DecView} {x : List Byte} (hdone : v.done = false) (h : ¬(v.seen = false ∧ x = [])) :
    v.finish x = (v.out ++ (decodeBlocks (v.bytes ++ x)).1, (decodeBlocks (v.bytes ++ x)).2) := by
  rw [finish, if_neg (Bool.eq_false_iff.mp hdone), if_neg h]

/-- Fewer than 8 bytes are no block. -/
theorem decodeBlocks_of_short {x : List Byte} (h : x.length < 8) : decodeBlocks x = ([], .framingError) := by
  unfold decodeBlocks
  split
  case h_1 =>
    simp only [List.length_cons] at h
    omega
  case h_2 => rfl

/-- The 7 bytes received and the eighth are the completed block. -/
theorem decBytes_append_eighth (b : Byte) {s : State} (hcnt : s.decCnt = 7) :
    s.decBytes ++ [b] = (s.decBuf.set 7 b).toList := by
  have htake := take_succ_set s.decBuf.toList 7 b (by simp)
  rw [List.take_of_length_le (by simp)] at htake
  rw [State.decBytes, hcnt, Vector.toList_set]
  exact htake.symm

/-- The byte that completes a block makes it the next block the source's decoder reads. -/
theorem decodeBlocks_eighth (b : Byte) (x : List Byte) {s : State} (hcnt : s.decCnt = 7) :
    decodeBlocks (s.decBytes ++ b :: x) =
      if (splitBlock (s.decBuf.set 7 b)).1 then ((splitBlock (s.decBuf.set 7 b)).2, .ok)
      else ((splitBlock (s.decBuf.set 7 b)).2 ++ (decodeBlocks x).1, (decodeBlocks x).2) := by
  rw [← decodeBlocks_block_append, ← decBytes_append_eighth b hcnt, List.append_assoc, List.singleton_append]

/-- `D.DATA` does not change what the source makes of the stream. -/
theorem dDataStep_finish (b : Byte) (x : List Byte) (s : State) :
    (dDataStep b s).decView.finish x = s.decView.finish (b :: x) := by
  rw [dDataStep_decView]
  cases hdone : s.decDone with
  | true => rw [if_pos rfl, DecView.finish_done hdone, DecView.finish_done hdone]
  | false =>
    rw [if_neg Bool.false_ne_true, DecView.finish_open (v := s.decView) hdone (by simp)]
    change _ = (s.decOut ++ (decodeBlocks (s.decBytes ++ b :: x)).1, (decodeBlocks (s.decBytes ++ b :: x)).2)
    by_cases hcnt : s.decCnt = 7
    · rw [if_pos hcnt, decodeBlocks_eighth b x hcnt]
      cases hfinal : (splitBlock (s.decBuf.set 7 b)).1 with
      | true => rw [DecView.finish_done rfl, if_pos rfl]
      | false =>
        rw [DecView.finish_open rfl (by simp), if_neg Bool.false_ne_true, List.append_assoc]
        rfl
    · rw [if_neg hcnt, DecView.finish_open rfl (by simp), List.append_assoc, List.singleton_append]

/-- `D.END` ends the stream as the source's decoder does where no byte is left (R95). -/
theorem after_dEnd_finish (s : State) :
    (after .dEnd s).decView = ⟨0, [], false, false, (s.decView.finish []).2, (s.decView.finish []).1⟩ := by
  have hshort : decodeBlocks s.decBytes = ([], .framingError) := by
    have := s.decCnt.isLt
    exact decodeBlocks_of_short (by rw [s.decBytes_length]; omega)
  rw [after_dEnd_decView]
  cases hdone : s.decDone with
  | true => rw [DecView.finish_done hdone]; rfl
  | false =>
    cases hseen : s.decSeen with
    | true => simp [DecView.finish, State.decView, hdone, hseen, hshort]
    | false => simp [DecView.finish, State.decView, hdone, hseen]

@[simp] theorem afterWords_dStream_nil (s : State) : afterWords (dStream []) s = after .dEnd s := by
  simp [dStream, dBytes]

@[simp] theorem afterWords_dStream_cons (b : Byte) (x : List Byte) (s : State) :
    afterWords (dStream (b :: x)) s = afterWords (dStream x) (dDataStep b s) := by
  simp [dStream, dBytes, after]

/-- From any state, the commands of a stream end it as the source's decoder does. -/
theorem afterWords_dStream_decView (x : List Byte) (s : State) :
    (afterWords (dStream x) s).decView = ⟨0, [], false, false, (s.decView.finish x).2, (s.decView.finish x).1⟩ := by
  induction x generalizing s with
  | nil => rw [afterWords_dStream_nil, after_dEnd_finish]
  | cons b x ih => rw [afterWords_dStream_cons, ih, dDataStep_finish]

/-- With no stream open, the source's decoder reads the bytes to come alone. -/
theorem DecoderClosed.finish_eq {s : State} (h : DecoderClosed s) (x : List Byte) :
    s.decView.finish x = (s.decOut ++ (sourceDecode x).1, (sourceDecode x).2) := by
  obtain ⟨hcnt, hdone, hseen⟩ := h
  have hbytes : s.decBytes = [] := List.length_eq_zero_iff.mp (by rw [s.decBytes_length, hcnt]; rfl)
  by_cases hx : x = [] <;> simp [DecView.finish, State.decView, sourceDecode, hdone, hseen, hbytes, hx]

/-- A decoder stream emits the bytes, and records the outcome, that the source's decoder gives (R107). -/
theorem afterWords_dStream_of_closed (x : List Byte) {s : State} (h : DecoderClosed s) :
    (afterWords (dStream x) s).decOut = s.decOut ++ (sourceDecode x).1 ∧
      (afterWords (dStream x) s).decResult = (sourceDecode x).2 ∧ DecoderClosed (afterWords (dStream x) s) := by
  have hview := afterWords_dStream_decView x s
  rw [h.finish_eq, decView_eq_mk_iff] at hview
  obtain ⟨hcnt, -, hdone, hseen, hresult, hout⟩ := hview
  exact ⟨hout, hresult, hcnt, hdone, hseen⟩

/-! ### The round trip (R100) -/

/-- The source decodes what it framed, whatever follows the final block; the empty stream has none. -/
theorem sourceDecode_sourceEncode_append (o : ParityOrder) {b tail : List Byte} (htail : b = [] → tail = []) :
    sourceDecode (sourceEncode o b ++ tail) = (b, if b = [] then .okEmpty else .ok) := by
  by_cases hb : b = []
  · subst hb
    rw [htail rfl]
    rfl
  · rw [sourceDecode, if_neg (List.append_ne_nil_of_left_ne_nil (sourceEncode_ne_nil o hb) tail),
      decodeBlocks_sourceEncode_append o b hb, if_neg hb]

theorem splitBlock_fst (blk : Block) : (splitBlock blk).1 = hdrE blk[0] := by
  cases hE : hdrE blk[0] with
  | false => rw [splitBlock_data blk hE]
  | true => rw [splitBlock_final blk hE]

/-- Every whole block of `x` has a header without the end bit. -/
def NoFinalBlock (x : List Byte) : Prop := ∀ k, 8 * k + 8 ≤ x.length → hdrE (x.getD (8 * k) 0x00) = false

/-- Past a first block, no block is final either. -/
theorem NoFinalBlock.tail {blk : Block} {x : List Byte} (h : NoFinalBlock (blk.toList ++ x)) :
    (splitBlock blk).1 = false ∧ NoFinalBlock x := by
  have hlen : blk.toList.length = 8 := Vector.length_toList
  constructor
  · have hfirst := h 0 (by rw [List.length_append]; omega)
    rw [List.getD_append _ _ _ _ (by omega)] at hfirst
    rw [splitBlock_fst]
    simpa using hfirst
  · intro k hk
    have hnext := h (k + 1) (by rw [List.length_append]; omega)
    rw [List.getD_append_right _ _ _ _ (by omega), hlen] at hnext
    exact hnext

/-- A stream with no final block is read to its end, which is a framing failure. -/
theorem decodeBlocks_of_noFinalBlock {x : List Byte} (h : NoFinalBlock x) : (decodeBlocks x).2 = .framingError := by
  induction x using decodeBlocks.induct with
  | case1 b0 b1 b2 b3 b4 b5 b6 b7 rest out hsplit =>
    have hfirst := (NoFinalBlock.tail (blk := #v[b0, b1, b2, b3, b4, b5, b6, b7]) h).1
    rw [hsplit] at hfirst
    exact absurd hfirst Bool.noConfusion
  | case2 b0 b1 b2 b3 b4 b5 b6 b7 rest out hsplit ih =>
    have hrest := (NoFinalBlock.tail (blk := #v[b0, b1, b2, b3, b4, b5, b6, b7]) h).2
    simp only [decodeBlocks, hsplit]
    exact ih hrest
  | case3 x hshort =>
    rw [decodeBlocks]
    exact hshort

/-- Settles O53: both streams are the source's, which decodes its own framing and finds no end without a final block. -/
theorem codecRoundTrip : Obligations.CodecRoundTrip := by
  constructor
  · intro b tail s hcnt hclosed htail
    obtain ⟨-, henc⟩ := afterWords_eStream_of_no_chunk b hcnt
    have hdec := (afterWords_keeps_decoder_of_encoder (eStream_unit b) s).1
    have hclosed' : DecoderClosed (afterWords (eStream b) s) :=
      ⟨hdec.cnt.trans hclosed.cnt, hdec.done.trans hclosed.done, hdec.seen.trans hclosed.seen⟩
    have hrun := afterWords_dStream_of_closed (sourceEncode Config.parityOrder b ++ tail) hclosed'
    rw [sourceDecode_sourceEncode_append _ htail, hdec.out] at hrun
    exact ⟨_, _, _, runWords_eq _ s, henc, runWords_eq _ _, hrun⟩
  · intro tail s hclosed hne hno
    obtain ⟨-, hresult, -⟩ := afterWords_dStream_of_closed tail hclosed
    rw [sourceDecode, if_neg hne, decodeBlocks_of_noFinalBlock hno] at hresult
    exact ⟨_, runWords_eq _ s, hresult⟩

/-! ### Complete blocks (R91) -/

/-- Settles O15: `DEC_DONE` is set if the block is final, and stays as it was if not. -/
theorem processBlockIsSplitBlock : Obligations.ProcessBlockIsSplitBlock := by
  intro blk s
  rw [processBlock_eq_splitBlock]
  cases (splitBlock blk).1 <;> simp

/-- Settles O18: `D.DATA` with the eighth byte is the block kind between the write to `DEC_BUF` and its discard. -/
theorem eighthByteRunsTheBlockKind : Obligations.EighthByteRunsTheBlockKind := by
  intro b s hdone hcnt
  have hafter : after (.dData b) s = _ := dDataStep_eighth hdone hcnt rfl
  refine ⟨_, _, exec_eq_after (.dData b) s, exec_eq_after _ s, ?_⟩
  rw [hafter, after_decodeBlock, processBlock_eq_splitBlock, processBlock_eq_splitBlock]
  exact ⟨rfl, rfl, rfl, rfl, rfl, ⟨rfl, rfl, rfl⟩, rfl, rfl⟩

/-! ### The decoder commands (R89, R90, R93, R95) -/

/-- Settles O31: `D.RESET` writes every field it names. -/
theorem decoderResetResult : Obligations.DecoderResetResult := by
  refine ⟨decodeCommand_dReset, rfl, fun s => ?_⟩
  have hkeep := after_keeps_encoder_of_decoder (i := .dReset) rfl s
  exact ⟨after .dReset s, exec_eq_after _ s, rfl, rfl, rfl, rfl, rfl, hkeep⟩

/-- After the final block `D.DATA` is ignored (R93). -/
theorem dDataStep_of_done (b : Byte) {s : State} (h : s.decDone = true) : dDataStep b s = s := if_pos h

/-- Settles O32: the three cases are those of the decoder's view after `D.DATA`. -/
theorem decoderDataResult : Obligations.DecoderDataResult := by
  refine ⟨fun b => ⟨decodeCommand_dData b, rfl⟩, fun b s => ?_⟩
  refine ⟨after (.dData b) s, exec_eq_after _ s, ?_, after_keeps_encoder_of_decoder rfl s⟩
  by_cases hdone : s.decDone = true
  · rw [if_pos hdone]
    exact dDataStep_of_done b hdone
  · have hview : (after (.dData b) s).decView = _ := dDataStep_decView b s
    rw [if_neg hdone] at hview ⊢
    by_cases hcnt : s.decCnt = 7
    · rw [if_pos hcnt, decView_eq_mk_iff] at hview
      obtain ⟨hcnt', -, hdone', hseen, hresult, hout⟩ := hview
      rw [if_pos hcnt]
      exact ⟨hseen, hresult, hcnt', hout, hdone'⟩
    · rw [if_neg hcnt, decView_eq_mk_iff] at hview
      obtain ⟨hcnt', hbytes, hdone', hseen, hresult, hout⟩ := hview
      rw [if_neg hcnt]
      exact ⟨hseen, hresult, hcnt', hbytes, hout, hdone'⟩

/-- Settles O33: the outcome is that of the decoder's view after `D.END`. -/
theorem decoderEndResult : Obligations.DecoderEndResult := by
  refine ⟨decodeCommand_dEnd, rfl, fun s => ?_⟩
  obtain ⟨hcnt, -, hdone, hseen, hresult, hout⟩ := decView_eq_mk_iff.mp (after_dEnd_decView s)
  have hkeep := after_keeps_encoder_of_decoder (i := .dEnd) rfl s
  exact ⟨after .dEnd s, exec_eq_after _ s, hresult, hcnt, hdone, hseen, hout, hkeep⟩

/-! ### After the final block (R92) -/

/-- A command that does not close the decoder's stream keeps the decoder once the final block was processed. -/
theorem after_decodeCommand_sameDecoder_of_done {w : CmdWord} {s : State} (hdone : s.decDone = true)
    (hEnd : decodeCommand w ≠ .dEnd) (hDReset : decodeCommand w ≠ .dReset) (hGReset : decodeCommand w ≠ .gReset) :
    SameDecoder s (after (decodeCommand w) s) := by
  induction w using commandWord_cases with
  | nop d => rw [decodeCommand_nop]; rfl
  | eReset d | eData d | eEnd d => exact (after_keeps_decoder_of_encoder (by simp [Instr.unit]) s).1
  | gReset d => exact absurd (decodeCommand_gReset d) hGReset
  | dReset d => exact absurd (decodeCommand_dReset d) hDReset
  | dData d =>
    have hkept : after (.dData d) s = s := dDataStep_of_done d hdone
    rw [decodeCommand_dData, hkept]
  | dEnd d => exact absurd (decodeCommand_dEnd d) hEnd
  | reserved op d h => rw [decodeCommand_reserved d h]; exact ⟨rfl, rfl, rfl, rfl, rfl, rfl⟩

theorem afterWords_sameDecoder_of_done {ws : List CmdWord} {s : State} (hdone : s.decDone = true)
    (hws : ∀ w ∈ ws, decodeCommand w ≠ .dEnd ∧ decodeCommand w ≠ .dReset ∧ decodeCommand w ≠ .gReset) :
    SameDecoder s (afterWords ws s) := by
  induction ws generalizing s with
  | nil => rfl
  | cons w ws ih =>
    rw [List.forall_mem_cons] at hws
    obtain ⟨⟨hEnd, hDReset, hGReset⟩, hrest⟩ := hws
    have hkept := after_decodeCommand_sameDecoder_of_done hdone hEnd hDReset hGReset
    exact hkept.trans (ih (hkept.done.trans hdone) hrest)

/-- Settles O43: every command of the run finds `DEC_DONE = 1`. -/
theorem decoderStopsAfterFinalBlock : Obligations.DecoderStopsAfterFinalBlock := by
  intro ws s hdone hws
  exact ⟨afterWords ws s, runWords_eq ws s, afterWords_sameDecoder_of_done hdone hws⟩

/-! ### The block kinds (R96 to R99) -/

/-- The low two bits of a header are `E` and `S` (R55). -/
theorem header_flags {h : Byte} {E S : Bool} (hbits : h &&& 0x03 = 0#6 ++ BitVec.ofBool E ++ BitVec.ofBool S) :
    hdrE h = E ∧ hdrS h = S := by
  revert h E S; decide

theorem chunk_toList (q : Chunk) : q.toList = [q[0], q[1], q[2], q[3], q[4], q[5], q[6]] := by
  apply List.ext_getElem
  · simp
  · intro j hj _
    rw [Vector.length_toList] at hj
    interval_cases j <;> rfl

/-- Settles O34: the header has neither flag, and the payload goes out as it is stored. -/
theorem blkDataResult : Obligations.BlkDataResult := by
  constructor
  · intro h q hbits
    obtain ⟨hE, hS⟩ := header_flags (E := false) (S := false) hbits
    simp [decodeBlock, hE, hS, hdrPv]
  · intro pv q s
    rw [exec_eq_after, ← chunk_toList]
    rfl

/-- Settles O35: the header has `S` alone, and each lane of the payload is shifted. -/
theorem blkDataSResult : Obligations.BlkDataSResult := by
  constructor
  · intro h q hbits
    obtain ⟨hE, hS⟩ := header_flags (E := false) (S := true) hbits
    simp [decodeBlock, hE, hS, hdrPv]
  · intro pv q s
    simp only [exec_eq_after, after, blkDataSStep, chunk_toList, State.emitDec, List.map]

/-- Settles O36: the header has `E` alone, and `LEN` cuts the payload. -/
theorem blkFinalResult : Obligations.BlkFinalResult := by
  constructor
  · intro h q hbits
    obtain ⟨hE, hS⟩ := header_flags (E := true) (S := false) hbits
    simp [decodeBlock, hE, hS, hdrPvHi, hdrLen]
  · intro pvHi len q s
    rw [exec_eq_after, ← chunk_toList]
    rfl

/-- Settles O37: the header has both flags, and `LEN` cuts the shifted payload. -/
theorem blkFinalSResult : Obligations.BlkFinalSResult := by
  constructor
  · intro h q hbits
    obtain ⟨hE, hS⟩ := header_flags (E := true) (S := true) hbits
    simp [decodeBlock, hE, hS, hdrPvHi, hdrLen]
  · intro pvHi len q s
    simp only [exec_eq_after, after, blkFinalSStep, chunk_toList, State.emitDec, List.map]

end Sys2Proof.Machine

/-! PROOFS. The statements of 43_global.md: `NOP`, the reserved commands, `G.RESET`, and the `DATA` field of a command that
takes no byte. -/

namespace Sys2Proof.Machine

open Sys2Proof

/-! ### `NOP` (R102) -/

theorem afterWords_nop_cons (d : Byte) (ws : List CmdWord) (s : State) :
    afterWords (cmdWord 0x0 d :: ws) s = afterWords ws s := by
  have hdec : decodeCommand (cmdWord 0x0 d) = .nop := decodeCommand_nop d
  rw [afterWords_cons, hdec]
  rfl

/-- Settles O24: a run may leave out its `NOP`s. -/
theorem nopHasNoEffect : Obligations.NopHasNoEffect := by
  refine ⟨decodeCommand_nop, rfl, fun s => exec_eq_after .nop s, fun a b s => ?_⟩
  rw [runWords_eq, runWords_eq, afterWords_cons, afterWords_nop_cons, ← afterWords_cons]

/-! ### Reserved commands (R103) -/

/-- `OP[3]`, bit 11 of a word, marks the reserved space (30_encoding.md R50, R53). -/
theorem eight_le_cmdOp {w : CmdWord} (h : w &&& 0x800 = 0x800) : 8 ≤ (cmdOp w).toNat := by
  have hbit : cmdOp w &&& 0x8 = 0x8 := by
    rw [← cmdWord_fields w, cmdWord_and_800] at h
    exact (cmdOp_cmdWord _ 0x00).symm.trans (congrArg cmdOp h)
  generalize cmdOp w = op at hbit ⊢
  revert op; decide

/-- Settles O25: `OP[3]` decides the decoding, and the exception raised is the one write. -/
theorem reservedCommandResult : Obligations.ReservedCommandResult := by
  constructor
  · intro w h
    have hdec := decodeCommand_reserved (cmdData w) (eight_le_cmdOp h)
    rwa [cmdWord_fields] at hdec
  · intro op data s
    exact exec_eq_after (.reserved op data) s

/-! ### `G.RESET` (R101) -/

/-- `STATUS` reads 0x0000 when every field of it has its reset value (10_state.md R27, R31). -/
theorem status_eq_zero {s : State} (henc : s.encCnt = 0) (hdec : s.decCnt = 0) (hdone : s.decDone = false)
    (hseen : s.decSeen = false) (hresult : s.decResult = .none) (herr : s.cmdErr = false) : s.status = 0x0000 := by
  simp only [State.status, henc, hdec, hdone, hseen, hresult, herr]
  decide

/-- Settles O23: `G.RESET` writes every field of `STATUS`, and `CMD_ERR` is sticky for every other instruction. -/
theorem globalResetResult : Obligations.GlobalResetResult := by
  refine ⟨decodeCommand_gReset, rfl, fun i s herr hi => ?_, fun s => ?_⟩
  · obtain ⟨-, hsticky⟩ := cmdErrIsSticky
    obtain ⟨t, hexec, hset⟩ := hsticky i s
    exact ⟨t, hexec, hset.mpr (.inr ⟨herr, hi⟩)⟩
  · have hout := after_outputs_of_block (i := .gReset) rfl s
    exact ⟨after .gReset s, exec_eq_after _ s, rfl, rfl, rfl, rfl, rfl, rfl,
      status_eq_zero rfl rfl rfl rfl rfl rfl, hout⟩

/-! ### The `DATA` field of a command that takes no byte (R104) -/

/-- An `OP` that takes no byte fixes the command, which is not a reserved one. -/
theorem decodeCommand_of_no_operand {op : BitVec 4}
    (hop : op ∈ ([0x0, 0x1, 0x3, 0x4, 0x5, 0x7] : List (BitVec 4))) :
    ∃ i, (∀ d, decodeCommand (cmdWord op d) = i) ∧ ∀ op' data, i ≠ .reserved op' data := by
  simp only [List.mem_cons, List.not_mem_nil, or_false] at hop
  rcases hop with rfl | rfl | rfl | rfl | rfl | rfl
  · exact ⟨.nop, decodeCommand_nop, nofun⟩
  · exact ⟨.eReset, decodeCommand_eReset, nofun⟩
  · exact ⟨.eEnd, decodeCommand_eEnd, nofun⟩
  · exact ⟨.gReset, decodeCommand_gReset, nofun⟩
  · exact ⟨.dReset, decodeCommand_dReset, nofun⟩
  · exact ⟨.dEnd, decodeCommand_dEnd, nofun⟩

/-- Only a reserved command sets `CMD_ERR` (10_state.md R23). -/
theorem after_cmdErr_of_not_reserved {i : Instr} (hi : ∀ op data, i ≠ .reserved op data) {s : State}
    (h : s.cmdErr = false) : (after i s).cmdErr = false := by
  rw [after_cmdErr]
  split
  case h_1 op data => exact absurd rfl (hi op data)
  case h_2 => rfl
  case h_3 => exact h

/-- Settles O5: both words decode to the one command of their `OP`. -/
theorem ignoredDataChangesNothing : Obligations.IgnoredDataChangesNothing := by
  intro op d s hop
  obtain ⟨i, hdec, hi⟩ := decodeCommand_of_no_operand hop
  rw [hdec d, hdec 0x00]
  exact ⟨after i s, exec_eq_after i s, exec_eq_after i s, after_cmdErr_of_not_reserved hi⟩

end Sys2Proof.Machine

/-! PROOFS. The statements of 60_exceptions.md: the two units do not touch each other, a decoder stream ends as the
source's decoder does, `FRAMING_ERROR` is `D.END`'s alone, no instruction stops the block, and a stall only delays. -/

namespace Sys2Proof.Machine

open Sys2Proof

/-! ### The units run independently (R120; 70_reset_and_hazards.md R136) -/

/-- Every block-level instruction but `G.RESET` keeps both units. -/
theorem after_keeps_units_of_block {i : Instr} (hu : i.unit = .block) (hG : i ≠ .gReset) (s : State) :
    SameEncoder s (after i s) ∧ SameDecoder s (after i s) := by
  cases i with
  | nop => exact ⟨.refl s, .refl s⟩
  | reserved op data => exact ⟨⟨rfl, rfl, rfl⟩, ⟨rfl, rfl, rfl, rfl, rfl, rfl⟩⟩
  | gReset => exact absurd rfl hG
  | eReset | eData _ | eEnd | dReset | dData _ | dEnd | blkData _ _ | blkDataS _ _ | blkFinal _ _ _
  | blkFinalS _ _ _ => cases hu

theorem concerns_eq_false_iff {u : CodecUnit} {w : CmdWord} :
    concerns u w = false ↔ (decodeCommand w).unit ≠ u ∧ decodeCommand w ≠ .gReset := by
  simp [concerns]

/-- A command that does not concern the encoder keeps its view. -/
theorem after_encView_of_not_concerns {w : CmdWord} (h : concerns .encoder w = false) (s : State) :
    (after (decodeCommand w) s).encView = s.encView := by
  obtain ⟨hunit, hG⟩ := concerns_eq_false_iff.mp h
  cases hu : (decodeCommand w).unit with
  | block => exact (after_keeps_units_of_block hu hG s).1.encView_eq
  | encoder => exact absurd hu hunit
  | decoder => exact (after_keeps_encoder_of_decoder hu s).1.encView_eq

/-- A command that does not concern the decoder keeps its view. -/
theorem after_decView_of_not_concerns {w : CmdWord} (h : concerns .decoder w = false) (s : State) :
    (after (decodeCommand w) s).decView = s.decView := by
  obtain ⟨hunit, hG⟩ := concerns_eq_false_iff.mp h
  cases hu : (decodeCommand w).unit with
  | block => exact (after_keeps_units_of_block hu hG s).2.decView_eq
  | encoder => exact (after_keeps_decoder_of_encoder hu s).1.decView_eq
  | decoder => exact absurd hu hunit

/-- Unwinding: a view that every command maps as a function of itself, and that the commands left out keep, is the same
after a run and after the run without them. -/
theorem afterWords_filter_view {α : Type} {view : State → α} {keep : CmdWord → Bool}
    (hcongr : ∀ (i : Instr) {s u : State}, view u = view s → view (after i u) = view (after i s))
    (hskip : ∀ {w : CmdWord}, keep w = false → ∀ s : State, view (after (decodeCommand w) s) = view s)
    (ws : List CmdWord) {s u : State} (h : view u = view s) :
    view (afterWords ws u) = view (afterWords (ws.filter keep) s) := by
  induction ws generalizing s u with
  | nil => exact h
  | cons w ws ih =>
    cases hw : keep w with
    | true => rw [List.filter_cons_of_pos hw]; exact ih (hcongr _ h)
    | false => rw [List.filter_cons_of_neg (by simp [hw])]; exact ih ((hskip hw u).trans h)

/-- Settles O48: every command maps a unit's view by that view alone, and keeps it if it does not concern the unit. -/
theorem unitsRunIndependently : Obligations.UnitsRunIndependently := by
  intro ws s
  exact ⟨_, _, _, runWords_eq ws s, runWords_eq _ s, runWords_eq _ s,
    afterWords_filter_view after_encView_congr after_encView_of_not_concerns ws rfl,
    afterWords_filter_view after_decView_congr after_decView_of_not_concerns ws rfl⟩

/-! ### A decoder stream against the source's decoder (R107) -/

/-- Decoder commands one after another keep the encoder and `CMD_ERR` (R120). -/
theorem afterWords_keeps_encoder_of_decoder {ws : List CmdWord} (hws : ∀ w ∈ ws, (decodeCommand w).unit = .decoder)
    (s : State) : SameEncoder s (afterWords ws s) ∧ (afterWords ws s).cmdErr = s.cmdErr := by
  induction ws generalizing s with
  | nil => exact ⟨.refl s, rfl⟩
  | cons w ws ih =>
    rw [List.forall_mem_cons] at hws
    obtain ⟨hw, hrest⟩ := hws
    obtain ⟨henc, herr⟩ := after_keeps_encoder_of_decoder hw s
    obtain ⟨hencs, herrs⟩ := ih hrest (after (decodeCommand w) s)
    exact ⟨henc.trans hencs, herrs.trans herr⟩

theorem dStream_unit (x : List Byte) : ∀ w ∈ dStream x, (decodeCommand w).unit = .decoder := by
  simp [dStream, dBytes, or_imp, forall_and, Instr.unit]

/-- Settles O52: the stream's commands decode it as the source does, and they are all the decoder's. -/
theorem decoderMeetsSource : Obligations.DecoderMeetsSource := by
  intro x s hclosed
  obtain ⟨hout, hresult, hclosed'⟩ := afterWords_dStream_of_closed x hclosed
  have hkeep := afterWords_keeps_encoder_of_decoder (dStream_unit x) s
  exact ⟨_, runWords_eq _ s, hout, hresult, hclosed', hkeep⟩

/-! ### `FRAMING_ERROR` (R106) -/

/-- `D.END` records a framing error exactly if a byte was seen and no final block processed. -/
theorem after_dEnd_framingError_iff (s : State) :
    (after .dEnd s).decResult = .framingError ↔ s.decDone = false ∧ s.decSeen = true := by
  have h : (after .dEnd s).decResult = _ := congrArg DecView.result (after_dEnd_decView s)
  rw [h]
  cases s.decDone <;> cases s.decSeen <;> simp

/-- No other instruction records one. -/
theorem after_decResult_ne_framingError {i : Instr} (hEnd : i ≠ .dEnd) {s : State}
    (h : s.decResult ≠ .framingError) : (after i s).decResult ≠ .framingError := by
  by_cases hD : i = .dReset
  · subst hD; exact DecResult.noConfusion
  · by_cases hG : i = .gReset
    · subst hG; exact DecResult.noConfusion
    · rwa [after_decResult hEnd hD hG]

/-- Settles O42: `D.END` records it in its second case, and clears `DEC_CNT` in every case. -/
theorem framingErrorOnlyAtEnd : Obligations.FramingErrorOnlyAtEnd := by
  intro i s hs
  refine ⟨after i s, exec_eq_after i s, ?_⟩
  by_cases hi : i = .dEnd
  · subst hi
    have hcnt : (after .dEnd s).decCnt = 0 := rfl
    simp [after_dEnd_framingError_iff, hcnt]
  · simp [after_decResult_ne_framingError hi hs, hi]

/-! ### No instruction stops (R109, R112) -/

/-- Every step goes on, and takes at most the oldest command. -/
theorem step_completes (s : State) : ∃ t, step s = .next t ∧ t.port = s.port.tail := by
  cases hport : s.port with
  | nil => exact ⟨s, step_idle hport, hport⟩
  | cons w rest => exact ⟨_, step_cons hport, rfl⟩

/-- Settles O20: every instruction goes on to `after`, which keeps the port. -/
theorem noInstructionStops : Obligations.NoInstructionStops :=
  ⟨fun i s => ⟨after i s, exec_eq_after i s, after_port i s⟩, step_completes⟩

/-! ### Backpressure (R123; 70_reset_and_hazards.md R138) -/

/-- Both buffers hold at most the depth. -/
abbrev Buffered.Within (depth : Nat) (b : Buffered) : Prop := b.encHeld ≤ depth ∧ b.decHeld ≤ depth

/-- A tick takes the block's step if the host has room for its output, and holds everything if not. -/
theorem Buffered.tick_of_step {b : Buffered} {t : State} (h : step b.block = .next t) (depth : Nat) :
    b.tick depth = if Within depth { b with block := t } then { b with block := t } else b := by
  simp only [Buffered.tick, h]

/-- A tick is a step whose output fits, or a stall. -/
theorem Buffered.tick_cases (depth : Nat) (b : Buffered) :
    (step b.block = .next (b.tick depth).block ∧ (b.tick depth).Within depth) ∨ b.tick depth = b := by
  obtain ⟨t, hstep, -⟩ := step_completes b.block
  rw [tick_of_step hstep]
  split
  case isTrue hfits => exact .inl ⟨hstep, hfits⟩
  case isFalse => exact .inr rfl

theorem Buffered.run_cons (depth : Nat) (ev : PortEvent) (evs : List PortEvent) (b : Buffered) :
    b.run depth (ev :: evs) = (b.on depth ev).run depth evs := rfl

/-- Settles O55, by induction on the events: a tick that is accepted adds one step, a stall and a drain add none. -/
theorem stallsOnlyDelay : Obligations.StallsOnlyDelay := by
  intro depth evs b
  induction evs generalizing b with
  | nil => exact ⟨0, Nat.le_refl 0, rfl⟩
  | cons ev evs ih =>
    obtain ⟨k, hk, hrun⟩ := ih (b.on depth ev)
    cases ev with
    | drain e d => exact ⟨k, by simpa using hk, hrun⟩
    | tick =>
      rw [List.count_cons_self]
      rcases b.tick_cases depth with ⟨hstep, -⟩ | hstall
      · exact ⟨k + 1, Nat.succ_le_succ hk, (run_of_step_next k hstep).trans hrun⟩
      · have hsame : b.on depth .tick = b := hstall
        rw [Buffered.run_cons, hsame]
        rw [hsame] at hrun
        exact ⟨k, Nat.le_succ_of_le hk, hrun⟩

/-- Draining never adds to what is held. -/
theorem Buffered.drain_held_le (e d : Nat) (b : Buffered) :
    (b.drain e d).encHeld ≤ b.encHeld ∧ (b.drain e d).decHeld ≤ b.decHeld := by
  simp only [encHeld, decHeld, drain]
  omega

theorem Buffered.on_keeps_within {depth : Nat} (ev : PortEvent) {b : Buffered} (h : b.Within depth) :
    (b.on depth ev).Within depth := by
  cases ev with
  | tick =>
    rcases b.tick_cases depth with ⟨-, hfits⟩ | hstall
    · exact hfits
    · simpa only [on, hstall] using h
  | drain e d =>
    obtain ⟨henc, hdec⟩ := b.drain_held_le e d
    exact ⟨henc.trans h.1, hdec.trans h.2⟩

theorem Buffered.run_keeps_within {depth : Nat} (evs : List PortEvent) {b : Buffered} (h : b.Within depth) :
    (b.run depth evs).Within depth := by
  induction evs generalizing b with
  | nil => exact h
  | cons ev evs ih => exact ih (on_keeps_within ev h)

/-- One step emits at most one block of `ENC_OUT`, and at most the 7 bytes of one on `DEC_OUT` (10_state.md R24). -/
theorem step_output_length_le {s t : State} (h : step s = .next t) :
    t.encOut.length ≤ s.encOut.length + 8 ∧ t.decOut.length ≤ s.decOut.length + 7 := by
  obtain ⟨-, rfl⟩ | ⟨w, rest, -, rfl⟩ := step_next_cases h
  · omega
  · obtain ⟨a, b, henc, hdec, -, ha, hb⟩ := after_outputs (decodeCommand w) s
    simp only [henc, hdec, List.length_append]
    omega

/-- With nothing held and room for one block, no command stalls. -/
theorem Buffered.step_eq_tick_of_drained {depth : Nat} (hdepth : 8 ≤ depth) {b : Buffered} (henc : b.encHeld = 0)
    (hdec : b.decHeld = 0) : step b.block = .next (b.tick depth).block := by
  obtain ⟨t, hstep, -⟩ := step_completes b.block
  obtain ⟨hencLen, hdecLen⟩ := step_output_length_le hstep
  have hfits : Within depth { b with block := t } := by
    simp only [Within, encHeld, decHeld] at henc hdec ⊢
    omega
  rw [tick_of_step hstep, if_pos hfits]
  exact hstep

/-- Settles O56: a tick whose output does not fit stalls, draining only frees, and one step's output fits in 8 bytes. -/
theorem buffersHoldTheirDepth : Obligations.BuffersHoldTheirDepth :=
  ⟨fun _ evs _ henc hdec => Buffered.run_keeps_within evs ⟨henc, hdec⟩,
    fun _ _ hdepth henc hdec => Buffered.step_eq_tick_of_drained hdepth henc hdec⟩

end Sys2Proof.Machine
